-- ==== Sys2Proof/Word.lean ====
section
/-! DEFINITION. The data widths and the register index of the machine (00_scope.md R9, R12): the 16-bit word, which is a register, a memory
cell, an instruction or a cell address, and the 8-bit character of the host streams (92_eei_decisions.md D11). -/

namespace Sys2Proof

/-- WORD and ADDR, 16 bits (R9). Arithmetic on it is modulo 65536 (R12, R41, R79). -/
abbrev Word := BitVec 16

/-- One character of the input or the output stream (R32, D11), and a trap vector (R62). -/
abbrev Byte := BitVec 8

/-- A general register index, a 3-bit field: R0 to R7 (R20, R21). -/
abbrev RegIx := Fin 8

end Sys2Proof
end

