-- ==== Sys2Proof/Config.lean ====
section
/-! DEFINITION. The values the spec leaves OPEN and fixes for no run: each is a constant with no body, so no proof can
see what it is and every claim holds whatever it is. The values the spec does decide stand, by name, in
Machine/Params.lean. -/

namespace Sys2Proof

/-- IN_PROMPT, the bytes the IN service writes before it reads (R10, R114, D13: OPEN). Log entry 5. -/
opaque Config.inPrompt : List Byte

/-- The free draw of the `n`-th poll of the keyboard (R33, D12): does the host say "available"? Applied to the counter
`State.polls`, for a poll the host has not answered beforehand in `State.pollAnswers`. Log entry 4. -/
opaque Config.pollDraw : Nat → Bool

end Sys2Proof
end

