-- ==== Sys2Proof/Machine/Params.lean ====
section
/-! DEFINITION. The named constants of the machine that 93_implementation_defined.md asks a model to keep in one place
(G5, G6, G17) and the named parameters of 00_scope.md R10. -/

namespace Sys2Proof.Machine

/-- START_PC (R9, R34). -/
def startPc : Word := 0x3000

/-- POSITIVE (R25, D3). -/
def condPositive : Word := 0x0001
/-- ZERO (R25, D3). -/
def condZero : Word := 0x0002
/-- NEGATIVE (R25, D3). -/
def condNegative : Word := 0x0004

/-- KBSR_ADDR, the keyboard status cell (R42, D4). -/
def kbsrAddr : Word := 0xFE00
/-- KBDR_ADDR, the keyboard data cell (R42, D4). -/
def kbdrAddr : Word := 0xFE02
/-- What a poll that finds input writes to KBSR (R43, D8). -/
def kbsrReady : Word := 0x8000
/-- What a poll that finds no input writes to KBSR (R43). -/
def kbsrIdle : Word := 0x0000

/-- What a cell nothing has written reads as: memory is zero-initialised at creation (R37). -/
def blankCell : Word := 0x0000

/-- The last cell of the address space (R40), where the PUTS and PUTSP scans stop (R113). -/
def lastCell : Word := 0xFFFF

/-- GETC's vector (R110, D5). -/
def vecGetc : Byte := 0x20
/-- OUT's vector. -/
def vecOut : Byte := 0x21
/-- PUTS's vector. -/
def vecPuts : Byte := 0x22
/-- IN's vector. -/
def vecIn : Byte := 0x23
/-- PUTSP's vector. -/
def vecPutsp : Byte := 0x24
/-- HALT's vector (R9). -/
def vecHalt : Byte := 0x25

/-- The six recognised vectors, in the source's order (R69, R110). -/
def serviceVectors : List Byte := [vecGetc, vecOut, vecPuts, vecIn, vecPutsp, vecHalt]

/-- TRAP_SETS_FLAGS, false by the spec's decision D7 (R10, R27). Log entry 6. -/
def trapSetsFlags : Bool := false

/-- HALT_TEXT, empty by the spec's decision D14 (R10, R116). Log entry 6. -/
def haltText : List Byte := []

/-- IN_PROMPT as the IN service uses it: the open constant of Config (R10, D13). -/
def inPrompt : List Byte := Config.inPrompt

end Sys2Proof.Machine
end

