-- ==== Sys2Proof/Machine/State.lean ====
section
/-! DEFINITION. The state of the machine as plain data: the ten registers of R20, the run state of R30, the memory of
R31, the three host streams of R32, and the two fields of the model's own that carry R33's free poll draw; the reasons a
step can end without a next state; the state at reset. -/

namespace Sys2Proof.Machine

/-- RUNNING and HALTED, the two states of the sequencer (R30, R120). -/
inductive RunState where
  | running
  | halted
  deriving DecidableEq, Repr

/-- An entry of the error channel: the condition and the info R131 records; the message text is unspecified (D15). -/
inductive Diagnostic where
  /-- op = instr[15:12] is 0x8 or 0xD (R123, R124). -/
  | unsupportedOpcode (op : BitVec 4)
  /-- TRAP with a vector outside 0x20 to 0x25 (R117). -/
  | unknownTrap (vect : Byte)
  deriving DecidableEq, Repr

/-- The 65536 cells of R31 and R40 as the list of the cells that differ from `blankCell`: (cell address, contents), the
addresses strictly rising (`Memory.wf`). The unit is the 16-bit cell, the only one the spec has (R40, R48). Log entry 9. -/
abbrev Memory := List (Nat × Word)

/-- The state of the core. -/
structure State where
  /-- R0 to R7 (R20). -/
  regs : Vector Word 8
  /-- PC (R23). -/
  pc : Word
  /-- COND, a 16-bit register holding one of three codes (R25). -/
  cond : Word
  /-- The run state (R30). -/
  run : RunState
  /-- Memory, KBSR and KBDR among its cells (R31, R42). -/
  mem : Memory
  /-- The input stream: the bytes the host has supplied and the core has not taken, the next one first (R32). -/
  input : List Byte
  /-- The output stream: every byte written so far, the first one first (R32). -/
  output : List Byte
  /-- The error channel: every diagnostic so far, the first one first (R32, R131). -/
  errors : List Diagnostic
  /-- The model's own field: the host's answers to the coming polls, "available" or not, where it has fixed them
  beforehand; the oracle of R33 and D25. Log entry 4. -/
  pollAnswers : List Bool
  /-- The model's own field: how many polls have been made, the argument of `Config.pollDraw` for a poll without an
  answer in `pollAnswers`. Log entry 4. -/
  polls : Nat
  deriving DecidableEq, Repr

/-- The reasons there is no next state. Each is a stuck state: the spec says the sequencer has no step there. -/
inductive Fault where
  /-- Raised by `step` alone: the run state is HALTED, where "no further instructions execute" (R125). Safe. -/
  | halted
  /-- Raised by GETC and IN: the input stream holds no byte, so they have no step until the host supplies one (R119,
  D12). Safe. -/
  | awaitingInput
  deriving DecidableEq, Repr

/-- The reasons an instruction has no meaning. Every word decodes and every form has its rule (R70), so only the
rejection by name is here; safe. -/
inductive Refusal where
  /-- Raised by `exec` for an instruction not modelled yet; no arm is one. -/
  | notModelled (mnemonic : String)
  deriving DecidableEq, Repr

/-- The state at the start of a run with INIT_GPR as given and no image loaded (R34 to R39, R150 steps 1 and 2). -/
def State.initial (initGpr : Vector Word 8) : State where
  regs := initGpr
  pc := startPc
  cond := condZero
  run := .running
  mem := []
  input := []
  output := []
  errors := []
  pollAnswers := []
  polls := 0

/-- The machine right after reset. The spec leaves R0 to R7 open (R36, D6); they are 0 here by log entry 2, and the
statements about reset are made for every INIT_GPR, over `State.initial`. -/
def State.reset : State := State.initial (Vector.replicate 8 0)

end Sys2Proof.Machine
end

