-- ==== Sys2Proof/Machine/Ops.lean ====
section
/-! DEFINITION. The named operations over registers, memory, the keyboard device, the host streams and traps: the
pseudocode primitives of 00_scope.md R13. -/

namespace Sys2Proof.Machine

/-! ### Bytes of a word (R48) -/

/-- zext_8: a character or vector as a word (R13, D11). -/
def zext8 (b : Byte) : Word := b.setWidth 16

/-- The low byte, bits 7:0 (R48). -/
def lowByte (v : Word) : Byte := v.extractLsb' 0 8

/-- The high byte, bits 15:8 (R48). -/
def highByte (v : Word) : Byte := v.extractLsb' 8 8

/-! ### Memory -/

/-- The contents of cell `k`: what is listed for it, else `blankCell` (R37). -/
def Memory.lookup : Memory → Nat → Word
  | [], _ => blankCell
  | (j, v) :: rest, k => if k = j then v else Memory.lookup rest k

/-- Cell `k` set to `v`, every other cell kept, the list kept in canonical form. -/
def Memory.store : Memory → Nat → Word → Memory
  | [], k, v => if v = blankCell then [] else [(k, v)]
  | (j, u) :: rest, k, v =>
    if k < j then (if v = blankCell then (j, u) :: rest else (k, v) :: (j, u) :: rest)
    else if k = j then (if v = blankCell then rest else (k, v) :: rest)
    else (j, u) :: Memory.store rest k v

/-- Canonical from address `lo` up: addresses strictly rising, below 65536, no cell listed with `blankCell`. -/
def Memory.wfFrom : Nat → Memory → Bool
  | _, [] => true
  | lo, (k, v) :: rest => decide (lo ≤ k) && decide (k < 65536) && decide (v ≠ blankCell) && Memory.wfFrom (k + 1) rest

/-- The canonical form of memory, in which equal memories are equal lists. -/
def Memory.wf (m : Memory) : Bool := Memory.wfFrom 0 m

/-- `Cell(addr)`: a direct lookup, no device poll (R13, D10). -/
def State.cell (s : State) (a : Word) : Word := Memory.lookup s.mem a.toNat

/-- `MemWrite(addr, 1, v)`: an unconditional store, no side effect at any address (R45). -/
def State.memWrite (s : State) (a v : Word) : State := { s with mem := Memory.store s.mem a.toNat v }

/-! ### Registers -/

/-- `x[i]` (R13, R21). -/
def State.reg (s : State) (r : RegIx) : Word := s.regs[r.val]

/-- `x[i] <- v`: no general register is hardwired (R21). -/
def State.writeReg (s : State) (r : RegIx) (v : Word) : State := { s with regs := s.regs.set r.val v }

/-- The input stream with `rest` left in it (R32). -/
def State.setInput (s : State) (rest : List Byte) : State := { s with input := rest }

/-- `PC <- v` (R13). -/
def State.setPc (s : State) (v : Word) : State := { s with pc := v }

/-! ### The keyboard (R33, R43) -/

/-- The draw of the coming poll: the answer the host fixed beforehand, else the free draw (R33, D25). -/
def State.pollDraw (s : State) : Bool :=
  match s.pollAnswers with
  | answer :: _ => answer
  | [] => Config.pollDraw s.polls

/-- The draw taken: the next poll has a draw of its own. -/
def State.takeDraw (s : State) : State := { s with pollAnswers := s.pollAnswers.tail, polls := s.polls + 1 }

/-- The poll of KBSR when the draw is `available` (R43): "available" counts only with a byte in the stream (R33). -/
def State.pollWith (available : Bool) (s : State) : State :=
  match available, s.input with
  | true, b :: rest => ((s.setInput rest).memWrite kbsrAddr kbsrReady).memWrite kbdrAddr (zext8 b)
  | true, [] => s.memWrite kbsrAddr kbsrIdle
  | false, _ => s.memWrite kbsrAddr kbsrIdle

/-- One poll of the keyboard. -/
def State.poll (s : State) : State := State.pollWith s.pollDraw s.takeDraw

/-- What a read at `a` does to the state before the cell is returned: a poll at KBSR_ADDR, nothing elsewhere (R43,
R44). -/
def State.beforeRead (s : State) (a : Word) : State := if a = kbsrAddr then s.poll else s

/-- `MemRead(addr, 1)`: the value read and the state after the read (R43). -/
def State.memRead (s : State) (a : Word) : Word × State := ((s.beforeRead a).cell a, s.beforeRead a)

/-! ### Host streams (R32) -/

/-- `Out(b)` for each byte of a list, in order (R13, R32). -/
def State.out (s : State) (bytes : List Byte) : State := { s with output := s.output ++ bytes }

/-- `InGet()`: the next byte of the input stream and the state without it; none where there is no byte to take and the
operation waits (R119). -/
def State.inGet (s : State) : Option (Byte × State) :=
  match s.input with
  | [] => none
  | b :: rest => some (b, s.setInput rest)

/-- `raise <Condition>(info)`: one entry on the error channel, nothing else (R13, R131). -/
def State.raiseDiag (s : State) (d : Diagnostic) : State := { s with errors := s.errors ++ [d] }

/-- `halt`: the run state becomes HALTED (R120). -/
def State.halt (s : State) : State := { s with run := .halted }

/-! ### Taking a trap and returning from it (R110, R135, R136) -/

/-- The link register, R7 (R94). -/
def linkReg : RegIx := 7

/-- Trap entry: save PC into R7, then set PC to the vector (R110, R135). -/
def trapEnter (vect : Byte) (s : State) : State := (s.writeReg linkReg s.pc).setPc (zext8 vect)

/-- Trap return: restore PC from R7 (R110, R136). -/
def trapReturn (s : State) : State := s.setPc (s.reg linkReg)

/-- `f` done after an operation that went on; a stop stays as it is. -/
def onNext (o : Host.Outcome State Fault Refusal) (f : State → State) : Host.Outcome State Fault Refusal :=
  match o with
  | .next s => .next (f s)
  | .fault r => .fault r
  | .refused r => .refused r

/-- The dispatch sequence of R110 around a built-in routine: entry, the routine, return. -/
def trapSequence (vect : Byte) (routine : State → Host.Outcome State Fault Refusal) (s : State) :
    Host.Outcome State Fault Refusal :=
  onNext (routine (trapEnter vect s)) trapReturn

end Sys2Proof.Machine
end

