-- ==== Sys2Proof/Machine/Operands.lean ====
section
/-! DEFINITION. Operand forms: sign extension (30_encoding.md R63, R64), the condition mask of BR (R90) and the addressing
modes of 42_load_store.md R99. PC is the incremented PC while an instruction executes (R23). -/

namespace Sys2Proof.Machine

/-- sext_n (R63): a set top bit ORs in `0xFFFF << n`, else the field is left unchanged. -/
def sext {n : Nat} (x : BitVec n) : Word :=
  if x.msb then x.setWidth 16 ||| (0xFFFF#16 <<< n) else x.setWidth 16

/-- instr[11:9] of BR as a number: n is its bit 2, z its bit 1, p its bit 0 (R25, R64). -/
def condMask (n z p : Bool) : Word := (BitVec.ofBool n ++ BitVec.ofBool z ++ BitVec.ofBool p).setWidth 16

/-- PC-relative: PC + sext_n(offset), modulo 65536, counted in cells (R64, R99). -/
def State.pcRel {n : Nat} (s : State) (off : BitVec n) : Word := s.pc + sext off

/-- Base + offset: x[BaseR] + sext_6(offset6), modulo 65536 (R99). -/
def State.baseRel (s : State) (base : RegIx) (off6 : BitVec 6) : Word := s.reg base + sext off6

/-- Indirect: the pointer read through MemRead at the PC-relative address, and the state after that read (R99). -/
def State.pointerAt (s : State) (off9 : BitVec 9) : Word × State := s.memRead (s.pcRel off9)

end Sys2Proof.Machine
end

