-- ==== Sys2Proof/Machine/Control.lean ====
section
/-! DEFINITION. Control transfer: BR, JMP, JSR, JSRR (41_control.md R90 to R94). PC is the incremented PC (R23); none of
them writes COND. -/

namespace Sys2Proof.Machine

/-- BR (R90): taken when the mask and COND share a bit. -/
def execBr (n z p : Bool) (off9 : BitVec 9) (s : State) : Host.Outcome State Fault Refusal :=
  .next (if condMask n z p &&& s.cond ≠ 0 then s.setPc (s.pcRel off9) else s)

/-- JMP (R91). -/
def execJmp (base : RegIx) (s : State) : Host.Outcome State Fault Refusal :=
  .next (s.setPc (s.reg base))

/-- JSR (R92): the return address into R7, then PC plus the offset. -/
def execJsr (off11 : BitVec 11) (s : State) : Host.Outcome State Fault Refusal :=
  .next ((s.writeReg linkReg s.pc).setPc (s.pcRel off11))

/-- JSRR (R93): R7 is written first, then BaseR is read, so `JSRR R7` goes on at the next instruction (D17). -/
def execJsrr (base : RegIx) (s : State) : Host.Outcome State Fault Refusal :=
  .next ((s.writeReg linkReg s.pc).setPc ((s.writeReg linkReg s.pc).reg base))

end Sys2Proof.Machine
end

