-- ==== Sys2Proof/Machine/Flags.lean ====
section
/-! DEFINITION. The flag-update logic, SetCC (10_state.md R26 to R28), the only writer of COND (R25). -/

namespace Sys2Proof.Machine

/-- The code SetCC writes for a value (R26). -/
def condOf (v : Word) : Word :=
  if v = 0x0000 then condZero
  else if v.getLsbD 15 then condNegative
  else condPositive

/-- SetCC(v) (R26). -/
def State.setCC (s : State) (v : Word) : State := { s with cond := condOf v }

/-- The end of a result-producing instruction: `x[DR] <- v`, then SetCC(x[DR]), COND the last register updated (R28). -/
def State.writeResult (s : State) (dr : RegIx) (v : Word) : State :=
  (s.writeReg dr v).setCC ((s.writeReg dr v).reg dr)

end Sys2Proof.Machine
end

