-- ==== Sys2Proof/Machine/LoadStore.lean ====
section
/-! DEFINITION. Loads, stores and LEA (42_load_store.md R99 to R106). Data and pointer reads go through MemRead, which
polls at KBSR_ADDR (R46). -/

namespace Sys2Proof.Machine

/-- The end of a load from `ea`: MemRead, the value into DR, COND from it (R100 to R102). -/
def State.loadFrom (s : State) (dr : RegIx) (ea : Word) : State :=
  (s.memRead ea).2.writeResult dr (s.memRead ea).1

/-- LD (R100). -/
def execLd (dr : RegIx) (off9 : BitVec 9) (s : State) : Host.Outcome State Fault Refusal :=
  .next (s.loadFrom dr (s.pcRel off9))

/-- LDI (R101): the pointer is read first, the data in the state after that read. -/
def execLdi (dr : RegIx) (off9 : BitVec 9) (s : State) : Host.Outcome State Fault Refusal :=
  .next ((s.pointerAt off9).2.loadFrom dr (s.pointerAt off9).1)

/-- LDR (R102). -/
def execLdr (dr base : RegIx) (off6 : BitVec 6) (s : State) : Host.Outcome State Fault Refusal :=
  .next (s.loadFrom dr (s.baseRel base off6))

/-- LEA (R103): no memory access. -/
def execLea (dr : RegIx) (off9 : BitVec 9) (s : State) : Host.Outcome State Fault Refusal :=
  .next (s.writeResult dr (s.pcRel off9))

/-- ST (R104). -/
def execSt (sr : RegIx) (off9 : BitVec 9) (s : State) : Host.Outcome State Fault Refusal :=
  .next (s.memWrite (s.pcRel off9) (s.reg sr))

/-- STI (R105): the pointer is read through MemRead, the store is done in the state after that read. -/
def execSti (sr : RegIx) (off9 : BitVec 9) (s : State) : Host.Outcome State Fault Refusal :=
  .next ((s.pointerAt off9).2.memWrite (s.pointerAt off9).1 (s.reg sr))

/-- STR (R106). -/
def execStr (sr base : RegIx) (off6 : BitVec 6) (s : State) : Host.Outcome State Fault Refusal :=
  .next (s.memWrite (s.baseRel base off6) (s.reg sr))

end Sys2Proof.Machine
end

