-- ==== Sys2Proof/Syntax.lean ====
section
/-! DEFINITION. The instructions as data: one constructor of `Instr` for each row of spec/opcode_table.json, the closed
enumeration of the sixteen opcodes. An immediate or offset is its raw field, of the width the
spec gives it, so a value outside the field cannot be written down; R63's sign extension is applied in Operands.lean. -/

namespace Sys2Proof

/-- The closed enumeration of the opcode field, "16 variants, two explicitly mapped to the unsupported branch" (R65,
R71, R122). Its numbering is `opcodeTable` in Decode.lean. -/
inductive Opcode where
  | br | add | ld | st | jsr | and | ldr | str | reserved8 | not | ldi | sti | jmp | reservedD | lea | trap
  deriving DecidableEq, Repr

/-- The instruction forms (R66, R71). -/
inductive Instr where
  /-- ADD, register mode (R80). -/
  | addReg (dr sr1 sr2 : RegIx)
  /-- ADD, immediate mode (R81). -/
  | addImm (dr sr1 : RegIx) (imm5 : BitVec 5)
  /-- AND, register mode (R82). -/
  | andReg (dr sr1 sr2 : RegIx)
  /-- AND, immediate mode (R83). -/
  | andImm (dr sr1 : RegIx) (imm5 : BitVec 5)
  /-- NOT (R84). -/
  | not (dr sr : RegIx)
  /-- BR with its three condition bits (R90). -/
  | br (n z p : Bool) (off9 : BitVec 9)
  /-- JMP; RET is JMP R7 (R91). -/
  | jmp (base : RegIx)
  /-- JSR (R92). -/
  | jsr (off11 : BitVec 11)
  /-- JSRR (R93). -/
  | jsrr (base : RegIx)
  /-- LD (R100). -/
  | ld (dr : RegIx) (off9 : BitVec 9)
  /-- LDI (R101). -/
  | ldi (dr : RegIx) (off9 : BitVec 9)
  /-- LDR (R102). -/
  | ldr (dr base : RegIx) (off6 : BitVec 6)
  /-- LEA (R103). -/
  | lea (dr : RegIx) (off9 : BitVec 9)
  /-- ST (R104). -/
  | st (sr : RegIx) (off9 : BitVec 9)
  /-- STI (R105). -/
  | sti (sr : RegIx) (off9 : BitVec 9)
  /-- STR (R106). -/
  | str (sr base : RegIx) (off6 : BitVec 6)
  /-- TRAP, the row for any vector (R110); the six recognised vectors have rows, and constructors, of their own, so a
  decoded `trap` carries an unrecognised vector (R117). -/
  | trap (vect : Byte)
  /-- TRAP x20, GETC (R111). -/
  | getc
  /-- TRAP x21, OUT (R112). -/
  | out
  /-- TRAP x22, PUTS (R113). -/
  | puts
  /-- TRAP x23, IN (R114). -/
  | inChar
  /-- TRAP x24, PUTSP (R115). -/
  | putsp
  /-- TRAP x25, HALT (R116). -/
  | halt
  /-- Reserved opcode 0x8 (R123). -/
  | reserved8
  /-- Reserved opcode 0xD (R124). -/
  | reservedD
  deriving DecidableEq, Repr

end Sys2Proof
end

