-- ==== Sys2Proof/WellFormed.lean ====
section
/-! DEFINITION. Which instruction terms are instructions of the machine. The types of the operands already hold every
field within its width, so one check is left: a `trap` term carries a vector that is none of the six recognised ones,
whose words are the terms `getc` to `halt` (R69, R110; log entry 10). -/

namespace Sys2Proof

/-- Is the vector one of the six services' (R69)? -/
def isServiceVector (vect : Byte) : Bool := Machine.serviceVectors.contains vect

/-- The term is the decoding of some word. -/
def Instr.wellFormed : Instr → Bool
  | .addReg _ _ _ => true
  | .addImm _ _ _ => true
  | .andReg _ _ _ => true
  | .andImm _ _ _ => true
  | .not _ _ => true
  | .br _ _ _ _ => true
  | .jmp _ => true
  | .jsr _ => true
  | .jsrr _ => true
  | .ld _ _ => true
  | .ldi _ _ => true
  | .ldr _ _ _ => true
  | .lea _ _ => true
  | .st _ _ => true
  | .sti _ _ => true
  | .str _ _ _ => true
  | .trap vect => !isServiceVector vect
  | .getc => true
  | .out => true
  | .puts => true
  | .inChar => true
  | .putsp => true
  | .halt => true
  | .reserved8 => true
  | .reservedD => true

end Sys2Proof
end

