-- ==== Sys2Proof/Decode.lean ====
section
/-! DEFINITION. The instruction decoder (30_encoding.md R60 to R71) and, after it, the encoder written from the same
opcode table (R65), field positions (R62) and formats (R66). The decoder is total: every word decodes to one form
(R70); only the absence of a word is rejected, by name. -/

namespace Sys2Proof

/-! ### The opcode numbers (R65, D1) and the field positions (R62, D2) -/

/-- The opcode map: entry `k` is the opcode of number `k`, the value of bits 15:12 (R65). -/
def opcodeTable : Vector Opcode 16 :=
  #v[.br, .add, .ld, .st, .jsr, .and, .ldr, .str, .reserved8, .not, .ldi, .sti, .jmp, .reservedD, .lea, .trap]

/-- The opcode of a 4-bit number. -/
def opcodeOf (code : BitVec 4) : Opcode := opcodeTable[code.toNat]

/-- The 4-bit number of an opcode, read back from the same table. -/
def opcodeCode (op : Opcode) : BitVec 4 := BitVec.ofNat 4 (opcodeTable.toList.idxOf op)

/-- Lowest bit of op, bits 15:12. -/
def opLo : Nat := 12
/-- Lowest bit of DR and SR, bits 11:9. -/
def drLo : Nat := 9
/-- Lowest bit of SR1 and BaseR, bits 8:6. -/
def baseLo : Nat := 6
/-- Lowest bit of SR2, bits 2:0. -/
def sr2Lo : Nat := 0
/-- Bit n of the condition mask. -/
def nBit : Nat := 11
/-- Bit z of the condition mask. -/
def zBit : Nat := 10
/-- Bit p of the condition mask. -/
def pBit : Nat := 9
/-- imm_flag, the mode bit of ADD and AND. -/
def immFlagBit : Nat := 5
/-- jsr_flag, the mode bit of JSR and JSRR. -/
def jsrFlagBit : Nat := 11
/-- Lowest bit of imm5, offset6, PCoffset9, PCoffset11 and trapvect8, which all start at bit 0. -/
def immLo : Nat := 0

/-- The register index in the three bits from `lo` up. -/
def regField (lo : Nat) (w : Word) : RegIx := ⟨(w.extractLsb' lo 3).toNat, (w.extractLsb' lo 3).isLt⟩

/-- The `n`-bit field from bit `lo` up (R11). -/
def bitField (lo n : Nat) (w : Word) : BitVec n := w.extractLsb' lo n

/-! ### The decoder -/

/-- The instruction of op 0xF with the given vector: a service of its own for each of the six (R110 to R116), the
general TRAP for any other (R117). -/
def trapInstr (vect : Byte) : Instr :=
  if vect = Machine.vecGetc then .getc
  else if vect = Machine.vecOut then .out
  else if vect = Machine.vecPuts then .puts
  else if vect = Machine.vecIn then .inChar
  else if vect = Machine.vecPutsp then .putsp
  else if vect = Machine.vecHalt then .halt
  else .trap vect

/-- Decode(w), R71: an exhaustive match over the sixteen opcodes, no bit outside a form's fields checked (R67). -/
def decode (w : Word) : Instr :=
  match opcodeOf (bitField opLo 4 w) with
  | .br => .br (w.getLsbD nBit) (w.getLsbD zBit) (w.getLsbD pBit) (bitField immLo 9 w)
  | .add =>
    if w.getLsbD immFlagBit then .addImm (regField drLo w) (regField baseLo w) (bitField immLo 5 w)
    else .addReg (regField drLo w) (regField baseLo w) (regField sr2Lo w)
  | .ld => .ld (regField drLo w) (bitField immLo 9 w)
  | .st => .st (regField drLo w) (bitField immLo 9 w)
  | .jsr => if w.getLsbD jsrFlagBit then .jsr (bitField immLo 11 w) else .jsrr (regField baseLo w)
  | .and =>
    if w.getLsbD immFlagBit then .andImm (regField drLo w) (regField baseLo w) (bitField immLo 5 w)
    else .andReg (regField drLo w) (regField baseLo w) (regField sr2Lo w)
  | .ldr => .ldr (regField drLo w) (regField baseLo w) (bitField immLo 6 w)
  | .str => .str (regField drLo w) (regField baseLo w) (bitField immLo 6 w)
  | .reserved8 => .reserved8
  | .not => .not (regField drLo w) (regField baseLo w)
  | .ldi => .ldi (regField drLo w) (bitField immLo 9 w)
  | .sti => .sti (regField drLo w) (bitField immLo 9 w)
  | .jmp => .jmp (regField baseLo w)
  | .reservedD => .reservedD
  | .lea => .lea (regField drLo w) (bitField immLo 9 w)
  | .trap => trapInstr (bitField immLo 8 w)

/-- Why a sequence of words has no first instruction. -/
inductive DecodeReject where
  /-- There is no word to decode. -/
  | noWord
  deriving DecidableEq, Repr

/-- The first instruction of a sequence of words and the words after it: one word each (R60). -/
def decodeWords : List Word → Except DecodeReject (Instr × List Word)
  | [] => .error .noWord
  | w :: rest => .ok (decode w, rest)

/-- The cell that holds an instruction whose `nbits` bits are `w`, the bits above them 0. -/
def tableWord (nbits w : Nat) : Word := BitVec.ofNat 16 (w % 2 ^ nbits)

/-- The instruction the decoder reads from a word numbered as spec/opcode_table.json numbers it; none for a length of
more than one word, which no instruction has (R60). -/
def decodeTableWord (nbits w : Nat) : Option Instr :=
  if nbits ≤ 16 then
    match decodeWords [tableWord nbits w] with
    | .ok (i, _) => some i
    | .error _ => none
  else none

/-! ### The encoder -/

/-- A field put at bit `lo`, every other bit 0. -/
def placeField {n : Nat} (lo : Nat) (v : BitVec n) : Word := v.setWidth 16 <<< lo

/-- A register index put at bit `lo`. -/
def placeReg (lo : Nat) (r : RegIx) : Word := placeField lo (BitVec.ofNat 3 r.val)

/-- A single bit put at bit `lo`. -/
def placeBit (lo : Nat) (b : Bool) : Word := placeField lo (BitVec.ofBool b)

/-- The opcode put at bits 15:12. -/
def placeOp (op : Opcode) : Word := placeField opLo (opcodeCode op)

/-- What assemblers write in NOT's ignored bits 5:0 (R66, R84); every other ignored bit they write as 0. -/
def notFill : BitVec 6 := 0b111111

/-- The word of op 0xF with a vector, bits 11:8 written 0. -/
def encodeTrap (vect : Byte) : Word := placeOp .trap ||| placeField immLo vect

/-- The word of an instruction, the ignored bits as R66's last column has them. -/
def encode : Instr → Word
  | .addReg dr sr1 sr2 => placeOp .add ||| placeReg drLo dr ||| placeReg baseLo sr1 ||| placeReg sr2Lo sr2
  | .addImm dr sr1 imm5 =>
    placeOp .add ||| placeReg drLo dr ||| placeReg baseLo sr1 ||| placeBit immFlagBit true ||| placeField immLo imm5
  | .andReg dr sr1 sr2 => placeOp .and ||| placeReg drLo dr ||| placeReg baseLo sr1 ||| placeReg sr2Lo sr2
  | .andImm dr sr1 imm5 =>
    placeOp .and ||| placeReg drLo dr ||| placeReg baseLo sr1 ||| placeBit immFlagBit true ||| placeField immLo imm5
  | .not dr sr => placeOp .not ||| placeReg drLo dr ||| placeReg baseLo sr ||| placeField immLo notFill
  | .br n z p off9 => placeOp .br ||| placeBit nBit n ||| placeBit zBit z ||| placeBit pBit p ||| placeField immLo off9
  | .jmp base => placeOp .jmp ||| placeReg baseLo base
  | .jsr off11 => placeOp .jsr ||| placeBit jsrFlagBit true ||| placeField immLo off11
  | .jsrr base => placeOp .jsr ||| placeReg baseLo base
  | .ld dr off9 => placeOp .ld ||| placeReg drLo dr ||| placeField immLo off9
  | .ldi dr off9 => placeOp .ldi ||| placeReg drLo dr ||| placeField immLo off9
  | .ldr dr base off6 => placeOp .ldr ||| placeReg drLo dr ||| placeReg baseLo base ||| placeField immLo off6
  | .lea dr off9 => placeOp .lea ||| placeReg drLo dr ||| placeField immLo off9
  | .st sr off9 => placeOp .st ||| placeReg drLo sr ||| placeField immLo off9
  | .sti sr off9 => placeOp .sti ||| placeReg drLo sr ||| placeField immLo off9
  | .str sr base off6 => placeOp .str ||| placeReg drLo sr ||| placeReg baseLo base ||| placeField immLo off6
  | .trap vect => encodeTrap vect
  | .getc => encodeTrap Machine.vecGetc
  | .out => encodeTrap Machine.vecOut
  | .puts => encodeTrap Machine.vecPuts
  | .inChar => encodeTrap Machine.vecIn
  | .putsp => encodeTrap Machine.vecPutsp
  | .halt => encodeTrap Machine.vecHalt
  | .reserved8 => placeOp .reserved8
  | .reservedD => placeOp .reservedD

/-- The bits of the word that a form uses: the opcode, the mode bit and the fields. The bits outside it are R66's `x`
bits, which R67 says are ignored. -/
def usedBits : Instr → Word
  | .addReg _ _ _ => 0b1111111111100111
  | .addImm _ _ _ => 0b1111111111111111
  | .andReg _ _ _ => 0b1111111111100111
  | .andImm _ _ _ => 0b1111111111111111
  | .not _ _ => 0b1111111111000000
  | .br _ _ _ _ => 0b1111111111111111
  | .jmp _ => 0b1111000111000000
  | .jsr _ => 0b1111111111111111
  | .jsrr _ => 0b1111100111000000
  | .ld _ _ => 0b1111111111111111
  | .ldi _ _ => 0b1111111111111111
  | .ldr _ _ _ => 0b1111111111111111
  | .lea _ _ => 0b1111111111111111
  | .st _ _ => 0b1111111111111111
  | .sti _ _ => 0b1111111111111111
  | .str _ _ _ => 0b1111111111111111
  | .trap _ => 0b1111000011111111
  | .getc => 0b1111000011111111
  | .out => 0b1111000011111111
  | .puts => 0b1111000011111111
  | .inChar => 0b1111000011111111
  | .putsp => 0b1111000011111111
  | .halt => 0b1111000011111111
  | .reserved8 => 0b1111000000000000
  | .reservedD => 0b1111000000000000

end Sys2Proof
end

