-- ==== Sys2Proof/Machine/Reserved.lean ====
section
/-! DEFINITION. The two reserved opcodes: a no-op that emits a diagnostic (44_sequencer.md R123, R124). -/

namespace Sys2Proof.Machine

/-- Reserved opcode 0x8 (R123). -/
def execReserved8 (s : State) : Host.Outcome State Fault Refusal :=
  .next (s.raiseDiag (.unsupportedOpcode (opcodeCode .reserved8)))

/-- Reserved opcode 0xD (R124). -/
def execReservedD (s : State) : Host.Outcome State Fault Refusal :=
  .next (s.raiseDiag (.unsupportedOpcode (opcodeCode .reservedD)))

end Sys2Proof.Machine
end

