-- ==== Sys2Proof/Machine/Trap.lean ====
section
/-! DEFINITION. The trap dispatcher and its six built-in service routines (43_trap.md R110 to R119). -/

namespace Sys2Proof.Machine

/-! ### The string scans (R113, R115) -/

/-- The cells a scan visits from `a` up, the zero cell that ends it left out: it stops at a zero cell or after the last
cell of the address space, and never wraps (R113). The number bounds the visits; 65536 is always enough. -/
def scanCells (m : Memory) : Nat → Word → List Word
  | 0, _ => []
  | fuel + 1, a =>
    if Memory.lookup m a.toNat = 0x0000 then []
    else Memory.lookup m a.toNat :: (if a = lastCell then [] else scanCells m fuel (a + 1))

/-- The scan from `a`, through direct lookups that never poll (D10). -/
def scanFrom (m : Memory) (a : Word) : List Word := scanCells m 65536 a

/-- What PUTS writes for one cell: its low byte (R113, D11). -/
def putsBytes (c : Word) : List Byte := [lowByte c]

/-- What PUTSP writes for one cell: the low byte always, then the high byte if nonzero (R115). -/
def putspBytes (c : Word) : List Byte := if highByte c ≠ 0 then [lowByte c, highByte c] else [lowByte c]

/-! ### The service routines -/

/-- The end of GETC and IN: the character, zero-extended, into R0; with TRAP_SETS_FLAGS, SetCC(x[0]) (R110, R111). -/
def State.giveChar (setsFlags : Bool) (b : Byte) (s : State) : State :=
  if setsFlags then (s.writeReg 0 (zext8 b)).setCC ((s.writeReg 0 (zext8 b)).reg 0) else s.writeReg 0 (zext8 b)

/-- GETC (R111): no step without a byte (R119). -/
def serviceGetc (setsFlags : Bool) (s : State) : Host.Outcome State Fault Refusal :=
  match s.inGet with
  | none => .fault .awaitingInput
  | some (b, t) => .next (t.giveChar setsFlags b)

/-- OUT (R112). -/
def serviceOut (s : State) : Host.Outcome State Fault Refusal :=
  .next (s.out [lowByte (s.reg 0)])

/-- PUTS (R113). -/
def servicePuts (s : State) : Host.Outcome State Fault Refusal :=
  .next (s.out ((scanFrom s.mem (s.reg 0)).flatMap putsBytes))

/-- IN (R114): the prompt, the byte, its echo, R0; no step, and so no prompt, without a byte (R119; log entry 8). -/
def serviceIn (prompt : List Byte) (setsFlags : Bool) (s : State) : Host.Outcome State Fault Refusal :=
  match (s.out prompt).inGet with
  | none => .fault .awaitingInput
  | some (b, t) => .next ((t.out [b]).giveChar setsFlags b)

/-- PUTSP (R115). -/
def servicePutsp (s : State) : Host.Outcome State Fault Refusal :=
  .next (s.out ((scanFrom s.mem (s.reg 0)).flatMap putspBytes))

/-- HALT (R116). Nothing after it in the instruction reads the run state, so writing HALTED before the PC restore is
the same as at the end of the instruction (R120; log entry 13). -/
def serviceHalt (text : List Byte) (s : State) : Host.Outcome State Fault Refusal :=
  .next (s.out text).halt

/-- An unrecognised vector: one diagnostic and no service (R117). -/
def serviceUnknown (vect : Byte) (s : State) : Host.Outcome State Fault Refusal :=
  .next (s.raiseDiag (.unknownTrap vect))

/-- `case vect of` in R110. -/
def trapRoutine (vect : Byte) : State → Host.Outcome State Fault Refusal :=
  if vect = vecGetc then serviceGetc trapSetsFlags
  else if vect = vecOut then serviceOut
  else if vect = vecPuts then servicePuts
  else if vect = vecIn then serviceIn inPrompt trapSetsFlags
  else if vect = vecPutsp then servicePutsp
  else if vect = vecHalt then serviceHalt haltText
  else serviceUnknown vect

/-! ### The instructions -/

/-- TRAP with any vector: the whole dispatch of R110, R117 for an unrecognised one. -/
def execTrap (vect : Byte) (s : State) : Host.Outcome State Fault Refusal := trapSequence vect (trapRoutine vect) s

/-- GETC (R110, R111). -/
def execGetc (s : State) : Host.Outcome State Fault Refusal := trapSequence vecGetc (serviceGetc trapSetsFlags) s

/-- OUT (R110, R112). -/
def execOut (s : State) : Host.Outcome State Fault Refusal := trapSequence vecOut serviceOut s

/-- PUTS (R110, R113). -/
def execPuts (s : State) : Host.Outcome State Fault Refusal := trapSequence vecPuts servicePuts s

/-- IN (R110, R114). -/
def execInChar (s : State) : Host.Outcome State Fault Refusal := trapSequence vecIn (serviceIn inPrompt trapSetsFlags) s

/-- PUTSP (R110, R115). -/
def execPutsp (s : State) : Host.Outcome State Fault Refusal := trapSequence vecPutsp servicePutsp s

/-- HALT (R110, R116). -/
def execHalt (s : State) : Host.Outcome State Fault Refusal := trapSequence vecHalt (serviceHalt haltText) s

end Sys2Proof.Machine
end

