-- ==== Sys2Proof/Machine/Fetch.lean ====
section
/-! DEFINITION. The fetch of the sequencer (44_sequencer.md R121), and putting a word where the next fetch reads it. -/

namespace Sys2Proof.Machine

/-- The word fetched through MemRead at the old PC, and the state after the fetch with PC incremented (R23, R121, D9). -/
def State.fetch (s : State) : Word × State :=
  ((s.memRead s.pc).1, (s.memRead s.pc).2.setPc (s.pc + 1))

/-- `s` running, with PC at a cell that a fetch reads as it stands: PC unless that is KBSR_ADDR, which the fetch polls
before it reads (log entry 11). -/
def State.readyToFetch (s : State) : State :=
  { s with run := .running, pc := if s.pc = kbsrAddr then startPc else s.pc }

/-- `s` ready to fetch, with `w` in the cell at its PC. -/
def State.placeAtFetch (s : State) (w : Word) : State := s.readyToFetch.memWrite s.readyToFetch.pc w

end Sys2Proof.Machine
end

