-- ==== Sys2Proof/Machine/Step.lean ====
section
/-! DEFINITION. One step of the sequencer: fetch, increment, decode, execute (44_sequencer.md R121). -/

namespace Sys2Proof.Machine

/-- Step(), enabled only when the run state is RUNNING (R121); in HALTED the sequencer has no step (R125). -/
def step (s : State) : Host.Outcome State Fault Refusal :=
  match s.run with
  | .running => exec (decode s.fetch.1) s.fetch.2
  | .halted => .fault .halted

/-- `s` with an opcode-table word where the next step fetches it (log entry 11). -/
def State.withFetchWord (s : State) (nbits w : Nat) : State := s.placeAtFetch (tableWord nbits w)

end Sys2Proof.Machine
end

