-- ==== Sys2Proof/Machine/Launch.lean ====
section
/-! DEFINITION. The launch and the host interface of 70_reset_and_hazards.md (R150 to R156): the image loader, whose
output the core must accept, the launch sequence, and the one thing the host may do to a running core, supply input.
None of them is a step of the core. -/

namespace Sys2Proof.Machine

/-- The words of an image: big-endian pairs of bytes, a trailing odd byte ignored (R151, R152). -/
def imageWords : List Byte → List Word
  | hi :: lo :: rest => (hi ++ lo) :: imageWords rest
  | [_] => []
  | [] => []

/-- Words placed from address `a` up, until they are exhausted or memory is full: nothing wraps (R152). -/
def placeWords (m : Memory) (a : Nat) : List Word → Memory
  | [] => m
  | w :: rest => if a < 65536 then placeWords (Memory.store m a w) (a + 1) rest else m

/-- One image loaded: the first word is the origin (R151). An image too short to hold an origin loads nothing (log
entry 12). -/
def loadImage (m : Memory) (image : List Byte) : Memory :=
  match imageWords image with
  | [] => m
  | origin :: rest => placeWords m origin.toNat rest

/-- Several images, in the host's order, a later one overwriting an earlier one (R153). -/
def loadImages (m : Memory) (images : List (List Byte)) : Memory := images.foldl loadImage m

/-- The launch (R150). It has no initial state where a collaborator failed before the run, so that a partly made machine
is never run (R132, R154, D27): `allocated` is whether the storage of the registers and memory could be allocated (step
1), and `none` among the images is one that could not be opened or read (step 3). The diagnostic with which the process
then aborts is the host's; without a state there is no error channel of the core to hold it. -/
def launch (allocated : Bool) (initGpr : Vector Word 8) (input : List Byte) (images : List (Option (List Byte))) :
    Option State :=
  if allocated then
    (images.mapM id).map fun loaded =>
      { State.initial initGpr with mem := loadImages [] loaded, input := input }
  else none

/-- The host appends bytes to the input stream, which it may do at any time (R156). -/
def State.supplyInput (s : State) (bytes : List Byte) : State := { s with input := s.input ++ bytes }

/-- The host fixes the answers to the coming polls (R33, D25): the oracle argument of the steps to come. -/
def State.answerPolls (s : State) (answers : List Bool) : State := { s with pollAnswers := answers }

end Sys2Proof.Machine
end

