-- ==== Sys2Proof/Safety.lean ====
section
/-! DEFINITION. What a safe run is, in the terms the claims use: the invariant of every run, the two stuck states, what
each instruction may write, and what it means that a state keeps the rest. -/

namespace Sys2Proof.Machine

/-- COND holds exactly one of its three codes (R25). -/
abbrev State.condLegal (s : State) : Prop := s.cond = condPositive ∨ s.cond = condZero ∨ s.cond = condNegative

/-- The invariant of every run: COND is legal (R25), and memory is 65536 cells in canonical form (R47; log entry 9). -/
abbrev State.Inv (s : State) : Prop := s.condLegal ∧ Memory.wf s.mem = true

/-! ### Where there is no next state (R119, R125) -/

/-- The instructions that take a byte of input with a blocking read (R119). -/
def Instr.takesInput : Instr → Bool
  | .getc => true
  | .inChar => true
  | .trap vect => vect == vecGetc || vect == vecIn
  | _ => false

/-- The sequencer waits for the host: the instruction at PC takes input and the stream holds no byte (R119). -/
abbrev State.waiting (s : State) : Prop :=
  s.run = .running ∧ Instr.takesInput (decode s.fetch.1) = true ∧ s.input = []

/-! ### Polls -/

/-- The coming poll finds input: the draw says "available" and there is a byte (R33). -/
def State.available (s : State) : Bool := s.pollDraw && !s.input.isEmpty

/-! ### What an instruction may write -/

/-- The general registers an instruction writes (R22). -/
def Instr.destRegs : Instr → List RegIx
  | .addReg dr _ _ | .addImm dr _ _ | .andReg dr _ _ | .andImm dr _ _ | .not dr _ => [dr]
  | .ld dr _ | .ldi dr _ | .ldr dr _ _ | .lea dr _ => [dr]
  | .br _ _ _ _ | .jmp _ | .st _ _ | .sti _ _ | .str _ _ _ | .reserved8 | .reservedD => []
  | .jsr _ | .jsrr _ | .out | .puts | .putsp | .halt => [7]
  | .getc | .inChar => [0, 7]
  | .trap vect => if vect = vecGetc ∨ vect = vecIn then [0, 7] else [7]

/-- The register whose final value SetCC takes; none for the instructions that do not write COND (R27, R28). -/
def Instr.condSource : Instr → Option RegIx
  | .addReg dr _ _ | .addImm dr _ _ | .andReg dr _ _ | .andImm dr _ _ | .not dr _ => some dr
  | .ld dr _ | .ldi dr _ | .ldr dr _ _ | .lea dr _ => some dr
  | _ => none

/-- The control transfers, the only instructions that change PC (R24). -/
def Instr.transfers : Instr → Bool
  | .br _ _ _ _ | .jmp _ | .jsr _ | .jsrr _ => true
  | _ => false

/-- The address a store writes, computed as its meaning computes it; none for every other instruction (R46). -/
def Instr.storeAddr (s : State) : Instr → Option Word
  | .st _ off9 => some (s.pcRel off9)
  | .sti _ off9 => some (s.pointerAt off9).1
  | .str _ base off6 => some (s.baseRel base off6)
  | _ => none

/-- The instructions that read memory, and so may poll (R46). -/
def Instr.readsMemory : Instr → Bool
  | .ld _ _ | .ldi _ _ | .ldr _ _ _ | .sti _ _ => true
  | _ => false

/-! ### What is kept -/

/-- Every general register outside `rs` reads as before. -/
def SameRegsBut (rs : List RegIx) (s t : State) : Prop := ∀ r, r ∉ rs → t.reg r = s.reg r

/-- Every cell of the address space outside `cells` reads as before. -/
def SameCellsBut (cells : List Word) (s t : State) : Prop := ∀ a, a ∉ cells → t.cell a = s.cell a

/-- Nothing was taken from the input stream and no poll was made. -/
def SameInput (s t : State) : Prop := t.input = s.input ∧ t.pollAnswers = s.pollAnswers ∧ t.polls = s.polls

/-- Nothing was exchanged with the host: no input, no output, no diagnostic, no poll. -/
def SameHost (s t : State) : Prop := SameInput s t ∧ t.output = s.output ∧ t.errors = s.errors

/-- Every register outside `rs`, every cell outside `cells`, COND, the run state and the host streams are kept; PC is
not spoken of. -/
def KeptBut (rs : List RegIx) (cells : List Word) (s t : State) : Prop :=
  SameRegsBut rs s t ∧ SameCellsBut cells s t ∧ t.cond = s.cond ∧ t.run = s.run ∧ SameHost s t

/-- A result-producing instruction wrote `v` to `dr` and the code of `v` to COND, and nothing else (R26 to R28). -/
def ResultWritten (dr : RegIx) (v : Word) (s t : State) : Prop :=
  t.reg dr = v ∧ SameRegsBut [dr] s t ∧ t.cond = condOf v ∧ t.pc = s.pc ∧ t.run = s.run ∧ SameCellsBut [] s t ∧
    SameHost s t

/-- From `s` to `t` the keyboard was polled once, and no other cell, no other stream and no diagnostic changed (R43):
with input available one byte is consumed, KBSR is 0x8000 and KBDR the zero-extended byte; else KBSR is 0 and KBDR as
before. The last two facts are about the model's own fields, the draws (log entry 4). -/
def Polled (s t : State) : Prop :=
  (s.available = true → ∃ b, s.input = b :: t.input ∧ t.cell kbsrAddr = 0x8000 ∧ t.cell kbdrAddr = b.setWidth 16) ∧
  (s.available = false → t.input = s.input ∧ t.cell kbsrAddr = 0x0000 ∧ t.cell kbdrAddr = s.cell kbdrAddr) ∧
  SameCellsBut [kbsrAddr, kbdrAddr] s t ∧ t.output = s.output ∧ t.errors = s.errors ∧
  t.pollAnswers = s.pollAnswers.tail ∧ t.polls = s.polls + 1

/-- What a read of KBSR returns from `s` (R43): 0x8000 if the poll finds input, else 0. -/
def State.kbsrValue (s : State) : Word := if s.available then 0x8000 else 0x0000

/-- The cell at `ea` was loaded into `dr`, COND is its code, and nothing else changed; at KBSR_ADDR the read polled
first (R43, R44, R100 to R102). -/
def LoadedFrom (dr : RegIx) (ea : Word) (s t : State) : Prop :=
  (ea ≠ kbsrAddr → ResultWritten dr (s.cell ea) s t) ∧
  (ea = kbsrAddr → Memory.wf s.mem = true →
    t.reg dr = s.kbsrValue ∧ SameRegsBut [dr] s t ∧ t.cond = condOf s.kbsrValue ∧ t.pc = s.pc ∧ t.run = s.run ∧
      Polled s t)

/-- A trap left its return address in R7 and PC there too, wrote no register but R7 and those of `rs`, and changed
neither COND nor any cell, and made no poll (R110, R118). -/
def TrapReturned (rs : List RegIx) (s t : State) : Prop :=
  t.reg 7 = s.pc ∧ t.pc = s.pc ∧ SameRegsBut (7 :: rs) s t ∧ t.cond = s.cond ∧ SameCellsBut [] s t ∧
    t.pollAnswers = s.pollAnswers ∧ t.polls = s.polls

/-- The bytes PUTS or PUTSP writes for the string at `a`: it is `n` cells long, the cells before its end are nonzero,
and it ends at a zero cell or at the end of the address space; `bytes` of each cell in order (R113, R115). -/
def StringWritten (s : State) (a : Word) (bytes : Word → List Byte) (written : List Byte) : Prop :=
  ∃ n, a.toNat + n ≤ 65536 ∧ (∀ k, k < n → s.cell (a + BitVec.ofNat 16 k) ≠ 0) ∧
    (a.toNat + n = 65536 ∨ s.cell (a + BitVec.ofNat 16 n) = 0) ∧
    written = (List.range n).flatMap fun k => bytes (s.cell (a + BitVec.ofNat 16 k))

end Sys2Proof.Machine
end

