-- ==== Sys2Proof/Certificates/Slice0/Obligations.lean ====
section
/-! DEFINITION. The statements about the model, from the spec's numbered rules: encoding, the meaning and frame of every
instruction, the step, the invariant, the rules about the whole machine, and the launch. -/

open Sys2Proof Sys2Proof.Machine

/-! ### Encoding (30_encoding.md) -/

/-- R63, for every width up to 16: a set top bit ORs in 0xFFFF << n, else the field is unchanged; the two's-complement
value is kept; and the source's two worked values. -/
def Obligations.SignExtensionFollowsTheSource : Prop :=
  (∀ n : Nat, 0 < n → n ≤ 16 → ∀ x : BitVec n,
    (x.getLsbD (n - 1) = true → sext x = x.setWidth 16 ||| (0xFFFF#16 <<< n)) ∧
    (x.getLsbD (n - 1) = false → sext x = x.setWidth 16) ∧
    (sext x).toInt = x.toInt) ∧
  sext 0b10000#5 = 0xFFF0 ∧ sext 0b01111#5 = 0x000F

/-- Decoding gives back every well-formed instruction from its word, with every operand at every value (R65, R66, R70). -/
def Obligations.DecodeOfEncodeIsTheInstruction : Prop :=
  ∀ i : Instr, i.wellFormed = true → decode (encode i) = i

/-- Every word decodes to a well-formed instruction, and encoding that gives back every bit the form uses (R66, R70). -/
def Obligations.EveryWordDecodesAndKeepsItsUsedBits : Prop :=
  ∀ w : Word, (decode w).wellFormed = true ∧
    encode (decode w) &&& usedBits (decode w) = w &&& usedBits (decode w)

/-- R67: the bits marked x are ignored. Two words of one of the eight forms that have such bits decode alike when they
agree on the form's other bits: register ADD and AND, NOT, JMP, JSRR, TRAP, and the reserved opcodes. That they are
ignored is the spec's decision D16. -/
def Obligations.IgnoredBitsAreIgnored : Prop :=
  ∀ w w' : Word,
    (w &&& 0xF020 = 0x1000 → w &&& 0xFFE7 = w' &&& 0xFFE7 → decode w' = decode w) ∧
    (w &&& 0xF020 = 0x5000 → w &&& 0xFFE7 = w' &&& 0xFFE7 → decode w' = decode w) ∧
    (w &&& 0xF000 = 0x9000 → w &&& 0xFFC0 = w' &&& 0xFFC0 → decode w' = decode w) ∧
    (w &&& 0xF000 = 0xC000 → w &&& 0xF1C0 = w' &&& 0xF1C0 → decode w' = decode w) ∧
    (w &&& 0xF800 = 0x4000 → w &&& 0xF9C0 = w' &&& 0xF9C0 → decode w' = decode w) ∧
    (w &&& 0xF000 = 0xF000 → w &&& 0xF0FF = w' &&& 0xF0FF → decode w' = decode w) ∧
    (w &&& 0xF000 = 0x8000 → w &&& 0xF000 = w' &&& 0xF000 → decode w' = decode w) ∧
    (w &&& 0xF000 = 0xD000 → w &&& 0xF000 = w' &&& 0xF000 → decode w' = decode w)

/-- Words of the decode table of 95_test_vectors.md 2.3, in the model's terms: an offset is its raw field, 0x400 for the
table's sign-extended 0xFC00 (log entry 14), and TRAP with vector 0x25 is the term `halt` (log entry 10). -/
def Obligations.TheSpecsWordsDecode : Prop :=
  decode 0x0E00 = .br true true true 0 ∧ decode 0x1443 = .addReg 2 1 3 ∧ decode 0x145B = .addReg 2 1 3 ∧
  decode 0x1463 = .addImm 2 1 3 ∧ decode 0x4C00 = .jsr 0x400 ∧ decode 0x41C0 = .jsrr 7 ∧ decode 0x9280 = .not 1 2 ∧
  decode 0xCEFF = .jmp 3 ∧ decode 0xFF25 = .halt ∧ decode 0x8000 = .reserved8 ∧ decode 0xDFFF = .reservedD

/-! ### The flag-update logic (10_state.md) -/

/-- R26: SetCC's three cases, and that it changes nothing but COND. -/
def Obligations.SetCCFollowsTheFlagRule : Prop :=
  ∀ (s : State) (v : Word),
    (v = 0x0000 → (s.setCC v).cond = condZero) ∧
    (v ≠ 0x0000 → v.getLsbD 15 = true → (s.setCC v).cond = condNegative) ∧
    (v ≠ 0x0000 → v.getLsbD 15 = false → (s.setCC v).cond = condPositive) ∧
    (s.setCC v).pc = s.pc ∧ (s.setCC v).run = s.run ∧ SameRegsBut [] s (s.setCC v) ∧ SameCellsBut [] s (s.setCC v) ∧
    SameHost s (s.setCC v)

/-! ### Operate instructions (40_operate.md) -/

/-- R80 and R81: ADD in both modes, from the word to the whole next state. -/
def Obligations.AddWritesTheSumAndItsFlags : Prop :=
  (∀ w : Word, w.extractLsb 15 12 = 0x1#4 →
    decode w = if w.getLsbD 5 then .addImm (w.extractLsb 11 9).toFin (w.extractLsb 8 6).toFin (w.extractLsb 4 0)
      else .addReg (w.extractLsb 11 9).toFin (w.extractLsb 8 6).toFin (w.extractLsb 2 0).toFin) ∧
  (∀ (s : State) (dr sr1 sr2 : RegIx), ∃ t, exec (.addReg dr sr1 sr2) s = .next t ∧
    ResultWritten dr (s.reg sr1 + s.reg sr2) s t) ∧
  (∀ (s : State) (dr sr1 : RegIx) (imm5 : BitVec 5), ∃ t, exec (.addImm dr sr1 imm5) s = .next t ∧
    ResultWritten dr (s.reg sr1 + sext imm5) s t)

/-- R82 and R83: AND in both modes, from the word to the whole next state. -/
def Obligations.AndWritesTheConjunctionAndItsFlags : Prop :=
  (∀ w : Word, w.extractLsb 15 12 = 0x5#4 →
    decode w = if w.getLsbD 5 then .andImm (w.extractLsb 11 9).toFin (w.extractLsb 8 6).toFin (w.extractLsb 4 0)
      else .andReg (w.extractLsb 11 9).toFin (w.extractLsb 8 6).toFin (w.extractLsb 2 0).toFin) ∧
  (∀ (s : State) (dr sr1 sr2 : RegIx), ∃ t, exec (.andReg dr sr1 sr2) s = .next t ∧
    ResultWritten dr (s.reg sr1 &&& s.reg sr2) s t) ∧
  (∀ (s : State) (dr sr1 : RegIx) (imm5 : BitVec 5), ∃ t, exec (.andImm dr sr1 imm5) s = .next t ∧
    ResultWritten dr (s.reg sr1 &&& sext imm5) s t)

/-- R84: NOT, from the word to the whole next state. -/
def Obligations.NotWritesTheComplementAndItsFlags : Prop :=
  (∀ w : Word, w.extractLsb 15 12 = 0x9#4 →
    decode w = .not (w.extractLsb 11 9).toFin (w.extractLsb 8 6).toFin) ∧
  (∀ (s : State) (dr sr : RegIx), ∃ t, exec (.not dr sr) s = .next t ∧ ResultWritten dr (~~~ s.reg sr) s t)

/-! ### Control transfer (41_control.md) -/

/-- R90: BR is taken when a mask bit meets its bit of COND, changes PC alone, never branches on mask 000 and, COND
legal, always on mask 111. -/
def Obligations.BrTestsTheMaskAgainstCond : Prop :=
  (∀ w : Word, w.extractLsb 15 12 = 0x0#4 →
    decode w = .br (w.getLsbD 11) (w.getLsbD 10) (w.getLsbD 9) (w.extractLsb 8 0)) ∧
  (∀ (s : State) (n z p : Bool) (off9 : BitVec 9), ∃ t, exec (.br n z p off9) s = .next t ∧
    t.pc = (if (n && s.cond.getLsbD 2) || (z && s.cond.getLsbD 1) || (p && s.cond.getLsbD 0) then s.pc + sext off9
      else s.pc) ∧ KeptBut [] [] s t) ∧
  (∀ (s : State) (off9 : BitVec 9), exec (.br false false false off9) s = .next s) ∧
  (∀ (s : State) (off9 : BitVec 9), s.condLegal →
    ∃ t, exec (.br true true true off9) s = .next t ∧ t.pc = s.pc + sext off9)

/-- R91: JMP. -/
def Obligations.JmpGoesToTheBaseRegister : Prop :=
  (∀ w : Word, w.extractLsb 15 12 = 0xC#4 → decode w = .jmp (w.extractLsb 8 6).toFin) ∧
  (∀ (s : State) (base : RegIx), ∃ t, exec (.jmp base) s = .next t ∧ t.pc = s.reg base ∧ KeptBut [] [] s t)

/-- R92: JSR. -/
def Obligations.JsrLinksAndGoesRelative : Prop :=
  (∀ w : Word, w.extractLsb 15 12 = 0x4#4 → w.getLsbD 11 = true → decode w = .jsr (w.extractLsb 10 0)) ∧
  (∀ (s : State) (off11 : BitVec 11), ∃ t, exec (.jsr off11) s = .next t ∧ t.reg 7 = s.pc ∧
    t.pc = s.pc + sext off11 ∧ KeptBut [7] [] s t)

/-- R93: JSRR writes R7 before it reads BaseR, so with BaseR = R7 it goes to the return address: the spec's
decision D17. -/
def Obligations.JsrrLinksBeforeItReadsTheBase : Prop :=
  (∀ w : Word, w.extractLsb 15 12 = 0x4#4 → w.getLsbD 11 = false → decode w = .jsrr (w.extractLsb 8 6).toFin) ∧
  (∀ (s : State) (base : RegIx), ∃ t, exec (.jsrr base) s = .next t ∧ t.reg 7 = s.pc ∧
    t.pc = (if base = 7 then s.pc else s.reg base) ∧ KeptBut [7] [] s t)

/-! ### Memory, loads, stores and LEA (20_memory.md, 42_load_store.md) -/

/-- R43 and R44: MemRead is a plain lookup everywhere but at KBSR_ADDR, where it polls the keyboard first. KBSR_ADDR,
the value 0x8000, the zero extension and the shared stream are the spec's decisions D4, D8, D11 and D12; that the draw is
carried by fields of the state is the model's choice, log entry 4. -/
def Obligations.MemReadPollsAtKbsrAlone : Prop :=
  ∀ s : State,
    (∀ a : Word, a ≠ kbsrAddr → s.memRead a = (s.cell a, s)) ∧
    (s.memRead kbsrAddr).1 = (s.memRead kbsrAddr).2.cell kbsrAddr ∧
    (Memory.wf s.mem = true → (s.memRead kbsrAddr).1 = s.kbsrValue ∧ Polled s (s.memRead kbsrAddr).2) ∧
    SameRegsBut [] s (s.memRead kbsrAddr).2 ∧ (s.memRead kbsrAddr).2.pc = s.pc ∧
    (s.memRead kbsrAddr).2.cond = s.cond ∧ (s.memRead kbsrAddr).2.run = s.run

/-- R45: MemWrite is an unconditional store with no side effect at any address, the device cells too; a read gives the
stored value back, except at KBSR_ADDR, where the read polls first and gives what the poll leaves: 0x8000 or 0 by R43 with
the spec's decision D8, by a draw whose fields are the model's, log entry 4. -/
def Obligations.MemWriteStoresAndDoesNothingElse : Prop :=
  ∀ (s : State) (a v : Word),
    (Memory.wf s.mem = true → (s.memWrite a v).cell a = v) ∧ (s.memWrite a v).pc = s.pc ∧
    KeptBut [] [a] s (s.memWrite a v) ∧
    (Memory.wf s.mem = true → ((s.memWrite a v).memRead a).1 = if a = kbsrAddr then s.kbsrValue else v)

/-- R100: LD, from the word to the whole next state, the poll at KBSR_ADDR included. What the poll does is R43, with the spec's
decisions D8, D11 and D12, and the fields that carry its draw are the model's, log entry 4. -/
def Obligations.LdLoadsPcRelative : Prop :=
  (∀ w : Word, w.extractLsb 15 12 = 0x2#4 → decode w = .ld (w.extractLsb 11 9).toFin (w.extractLsb 8 0)) ∧
  (∀ (s : State) (dr : RegIx) (off9 : BitVec 9), ∃ t, exec (.ld dr off9) s = .next t ∧
    LoadedFrom dr (s.pc + sext off9) s t)

/-- R101: LDI reads the pointer, then the data at it; each read polls at KBSR_ADDR, and a pointer read there is the
value the poll left. What the poll does is R43, with the spec's decisions D8, D11 and D12, and the fields that carry its
draw are the model's, log entry 4. -/
def Obligations.LdiLoadsThroughThePointer : Prop :=
  (∀ w : Word, w.extractLsb 15 12 = 0xA#4 → decode w = .ldi (w.extractLsb 11 9).toFin (w.extractLsb 8 0)) ∧
  (∀ (s : State) (dr : RegIx) (off9 : BitVec 9), ∃ t, exec (.ldi dr off9) s = .next t ∧
    (s.pc + sext off9 ≠ kbsrAddr → LoadedFrom dr (s.cell (s.pc + sext off9)) s t) ∧
    (s.pc + sext off9 = kbsrAddr → Memory.wf s.mem = true →
      t.reg dr = s.cell s.kbsrValue ∧ SameRegsBut [dr] s t ∧ t.cond = condOf (s.cell s.kbsrValue) ∧ t.pc = s.pc ∧
        t.run = s.run ∧ Polled s t))

/-- R102: LDR, from the word to the whole next state. Its data read is a MemRead (R46), which polls at KBSR_ADDR; what the
poll does is R43, with the spec's decisions D8, D11 and D12, and the fields that carry its draw are the model's, log entry
4. -/
def Obligations.LdrLoadsBasePlusOffset : Prop :=
  (∀ w : Word, w.extractLsb 15 12 = 0x6#4 →
    decode w = .ldr (w.extractLsb 11 9).toFin (w.extractLsb 8 6).toFin (w.extractLsb 5 0)) ∧
  (∀ (s : State) (dr base : RegIx) (off6 : BitVec 6), ∃ t, exec (.ldr dr base off6) s = .next t ∧
    LoadedFrom dr (s.reg base + sext off6) s t)

/-- R103: LEA writes the address and its flags, and reads no memory. -/
def Obligations.LeaWritesTheAddress : Prop :=
  (∀ w : Word, w.extractLsb 15 12 = 0xE#4 → decode w = .lea (w.extractLsb 11 9).toFin (w.extractLsb 8 0)) ∧
  (∀ (s : State) (dr : RegIx) (off9 : BitVec 9), ∃ t, exec (.lea dr off9) s = .next t ∧
    ResultWritten dr (s.pc + sext off9) s t)

/-- R104: ST stores SR at the PC-relative address and changes nothing else. -/
def Obligations.StStoresPcRelative : Prop :=
  (∀ w : Word, w.extractLsb 15 12 = 0x3#4 → decode w = .st (w.extractLsb 11 9).toFin (w.extractLsb 8 0)) ∧
  (∀ (s : State) (sr : RegIx) (off9 : BitVec 9), ∃ t, exec (.st sr off9) s = .next t ∧
    (Memory.wf s.mem = true → t.cell (s.pc + sext off9) = s.reg sr) ∧ t.pc = s.pc ∧
    KeptBut [] [s.pc + sext off9] s t)

/-- R105: STI stores SR at the pointer; with the pointer cell at KBSR_ADDR the pointer read polls first, and the store
goes to 0x8000 or 0x0000. What the poll does is R43, with the spec's decisions D8, D11 and D12, and the fields that carry
its draw are the model's, log entry 4. -/
def Obligations.StiStoresThroughThePointer : Prop :=
  (∀ w : Word, w.extractLsb 15 12 = 0xB#4 → decode w = .sti (w.extractLsb 11 9).toFin (w.extractLsb 8 0)) ∧
  (∀ (s : State) (sr : RegIx) (off9 : BitVec 9), ∃ t, exec (.sti sr off9) s = .next t ∧ t.pc = s.pc ∧
    (s.pc + sext off9 ≠ kbsrAddr → KeptBut [] [s.cell (s.pc + sext off9)] s t ∧
      (Memory.wf s.mem = true → t.cell (s.cell (s.pc + sext off9)) = s.reg sr)) ∧
    (s.pc + sext off9 = kbsrAddr → Memory.wf s.mem = true →
      Polled s (s.memRead kbsrAddr).2 ∧
      (∀ a, t.cell a = if a = s.kbsrValue then s.reg sr else (s.memRead kbsrAddr).2.cell a) ∧
      SameRegsBut [] s t ∧ t.cond = s.cond ∧ t.run = s.run ∧ SameHost (s.memRead kbsrAddr).2 t))

/-- R106: STR stores SR at base plus offset and changes nothing else. -/
def Obligations.StrStoresBasePlusOffset : Prop :=
  (∀ w : Word, w.extractLsb 15 12 = 0x7#4 →
    decode w = .str (w.extractLsb 11 9).toFin (w.extractLsb 8 6).toFin (w.extractLsb 5 0)) ∧
  (∀ (s : State) (sr base : RegIx) (off6 : BitVec 6), ∃ t, exec (.str sr base off6) s = .next t ∧
    (Memory.wf s.mem = true → t.cell (s.reg base + sext off6) = s.reg sr) ∧ t.pc = s.pc ∧
    KeptBut [] [s.reg base + sext off6] s t)

/-! ### Traps (43_trap.md) -/

/-- R110: the dispatch keys the six services by their vectors, and every trap that goes on leaves R7 = PC = the
incremented PC, and COND and all cells as they were. The vector of each service and that no trap writes COND are the
spec's decisions D5 and D7. -/
def Obligations.TrapDispatchesByVector : Prop :=
  (∀ s : State, exec (.trap 0x20) s = exec .getc s ∧ exec (.trap 0x21) s = exec .out s ∧
    exec (.trap 0x22) s = exec .puts s ∧ exec (.trap 0x23) s = exec .inChar s ∧
    exec (.trap 0x24) s = exec .putsp s ∧ exec (.trap 0x25) s = exec .halt s) ∧
  (∀ (s t : State) (vect : Byte), exec (.trap vect) s = .next t → TrapReturned [0] s t) ∧
  (∀ w : Word, w.extractLsb 15 12 = 0xF#4 → ∀ s : State, exec (decode w) s = exec (.trap (w.extractLsb 7 0)) s)

/-- R111: GETC takes the next byte, zero-extended, into R0, and echoes nothing; COND is as before, the parameter
TRAP_SETS_FLAGS being false, and with the parameter true the service leaves the code of R0. The vector, the parameter,
the zero extension and the untouched device cells are the spec's decisions D5, D7, D11 and D28. -/
def Obligations.GetcReadsOneCharacter : Prop :=
  (∀ w : Word, w.extractLsb 15 12 = 0xF#4 → w.extractLsb 7 0 = 0x20#8 → decode w = .getc) ∧
  (∀ (s : State) (b : Byte) (rest : List Byte), s.input = b :: rest →
    ∃ t, exec .getc s = .next t ∧ t.reg 0 = b.setWidth 16 ∧ t.input = rest ∧ t.output = s.output ∧
      t.errors = s.errors ∧ t.run = s.run ∧ TrapReturned [0] s t) ∧
  (∀ (s : State) (b : Byte) (rest : List Byte), s.input = b :: rest →
    ∃ t, trapSequence 0x20 (serviceGetc true) s = .next t ∧ t.reg 0 = b.setWidth 16 ∧ t.input = rest ∧
      t.output = s.output ∧ t.cond = condOf (b.setWidth 16))

/-- R112: OUT writes the low byte of R0. -/
def Obligations.OutWritesTheLowByte : Prop :=
  (∀ w : Word, w.extractLsb 15 12 = 0xF#4 → w.extractLsb 7 0 = 0x21#8 → decode w = .out) ∧
  (∀ s : State, ∃ t, exec .out s = .next t ∧ t.output = s.output ++ [(s.reg 0).extractLsb 7 0] ∧ t.input = s.input ∧
    t.errors = s.errors ∧ t.run = s.run ∧ TrapReturned [] s t)

/-- R113: PUTS writes the low byte of each cell of the string at R0, which ends at the first zero cell or at the end of
the address space. The direct lookup and the low byte are the spec's decisions D10 and D11. -/
def Obligations.PutsWritesTheString : Prop :=
  (∀ w : Word, w.extractLsb 15 12 = 0xF#4 → w.extractLsb 7 0 = 0x22#8 → decode w = .puts) ∧
  (∀ s : State, ∃ t written, exec .puts s = .next t ∧ t.output = s.output ++ written ∧
    StringWritten s (s.reg 0) (fun c => [c.extractLsb 7 0]) written ∧ t.input = s.input ∧ t.errors = s.errors ∧
    t.run = s.run ∧ TrapReturned [] s t)

/-- R114: IN writes the prompt, takes the next byte, echoes it and puts it, zero-extended, into R0, whatever IN_PROMPT
is; COND is as before, the parameter TRAP_SETS_FLAGS being false, and with it true the service, for any prompt, leaves the
code of R0. The two parameters, the vector, the zero extension and the untouched device cells are the spec's decisions D13,
D7, D5, D11 and D28. -/
def Obligations.InPromptsReadsAndEchoes : Prop :=
  (∀ w : Word, w.extractLsb 15 12 = 0xF#4 → w.extractLsb 7 0 = 0x23#8 → decode w = .inChar) ∧
  (∀ (s : State) (b : Byte) (rest : List Byte), s.input = b :: rest →
    ∃ t, exec .inChar s = .next t ∧ t.reg 0 = b.setWidth 16 ∧ t.input = rest ∧
      t.output = s.output ++ Config.inPrompt ++ [b] ∧ t.errors = s.errors ∧ t.run = s.run ∧ TrapReturned [0] s t) ∧
  (∀ (s : State) (b : Byte) (rest prompt : List Byte), s.input = b :: rest →
    ∃ t, trapSequence 0x23 (serviceIn prompt true) s = .next t ∧ t.reg 0 = b.setWidth 16 ∧ t.input = rest ∧
      t.output = s.output ++ prompt ++ [b] ∧ t.cond = condOf (b.setWidth 16))

/-- R115: PUTSP writes two characters a cell, the low byte always and the high byte if it is nonzero. The
direct lookup is the spec's decision D10. -/
def Obligations.PutspWritesThePackedString : Prop :=
  (∀ w : Word, w.extractLsb 15 12 = 0xF#4 → w.extractLsb 7 0 = 0x24#8 → decode w = .putsp) ∧
  (∀ s : State, ∃ t written, exec .putsp s = .next t ∧ t.output = s.output ++ written ∧
    StringWritten s (s.reg 0)
      (fun c => if c.extractLsb 15 8 = 0#8 then [c.extractLsb 7 0] else [c.extractLsb 7 0, c.extractLsb 15 8]) written ∧
    t.input = s.input ∧ t.errors = s.errors ∧ t.run = s.run ∧ TrapReturned [] s t)

/-- R116: HALT ends with run state HALTED and the PC save and restore done, and writes nothing, HALT_TEXT being empty;
for any other HALT_TEXT the service writes that text. HALT_TEXT is the spec's decision D14. -/
def Obligations.HaltStopsAfterTheRestore : Prop :=
  (∀ w : Word, w.extractLsb 15 12 = 0xF#4 → w.extractLsb 7 0 = 0x25#8 → decode w = .halt) ∧
  (∀ s : State, ∃ t, exec .halt s = .next t ∧ t.run = .halted ∧ t.output = s.output ∧ t.input = s.input ∧
    t.errors = s.errors ∧ TrapReturned [] s t) ∧
  (∀ (s : State) (text : List Byte), ∃ t, trapSequence 0x25 (serviceHalt text) s = .next t ∧ t.run = .halted ∧
    t.output = s.output ++ text ∧ TrapReturned [] s t)

/-- R117: an unrecognised vector, any outside 0x20 to 0x25, leaves one diagnostic and still saves and restores PC. -/
def Obligations.UnknownTrapOnlyReports : Prop :=
  (∀ w : Word, w.extractLsb 15 12 = 0xF#4 → (w.extractLsb 7 0).toNat < 0x20 ∨ 0x25 < (w.extractLsb 7 0).toNat →
    decode w = .trap (w.extractLsb 7 0)) ∧
  (∀ (s : State) (vect : Byte), vect.toNat < 0x20 ∨ 0x25 < vect.toNat →
    ∃ t, exec (.trap vect) s = .next t ∧ t.errors = s.errors ++ [.unknownTrap vect] ∧ t.output = s.output ∧
      t.input = s.input ∧ t.run = s.run ∧ TrapReturned [] s t)

/-- R119: GETC and IN have no step while the input stream holds no byte, a byte from the host lifts the wait, and no
other instruction waits. That having no step is a fault with a name is the model's, log entry 8. -/
def Obligations.BlockingInputWaitsForAByte : Prop :=
  (∀ s : State, s.input = [] → exec .getc s = .fault .awaitingInput ∧ exec .inChar s = .fault .awaitingInput) ∧
  (∀ (s : State) (bytes : List Byte), Memory.wf s.mem = true → step s = .fault .awaitingInput → bytes ≠ [] →
    ∃ t, step (s.supplyInput bytes) = .next t ∧ bytes = (t.reg 0).setWidth 8 :: t.input) ∧
  (∀ (i : Instr) (s : State), exec i s = .fault .awaitingInput → Instr.takesInput i = true ∧ s.input = [])

/-! ### The sequencer (44_sequencer.md) -/

/-- R123 and R124: the reserved opcodes leave one diagnostic and change nothing else; PC keeps the increment. -/
def Obligations.ReservedOpcodesOnlyReport : Prop :=
  (∀ w : Word, (w.extractLsb 15 12 = 0x8#4 → decode w = .reserved8) ∧
    (w.extractLsb 15 12 = 0xD#4 → decode w = .reservedD)) ∧
  (∀ s : State, ∃ t, exec .reserved8 s = .next t ∧ t.errors = s.errors ++ [.unsupportedOpcode 0x8] ∧ t.pc = s.pc ∧
    SameRegsBut [] s t ∧ SameCellsBut [] s t ∧ t.cond = s.cond ∧ t.run = s.run ∧ t.output = s.output ∧
    SameInput s t) ∧
  (∀ s : State, ∃ t, exec .reservedD s = .next t ∧ t.errors = s.errors ++ [.unsupportedOpcode 0xD] ∧ t.pc = s.pc ∧
    SameRegsBut [] s t ∧ SameCellsBut [] s t ∧ t.cond = s.cond ∧ t.run = s.run ∧ t.output = s.output ∧
    SameInput s t)

/-- R121: a running step fetches at PC through MemRead, increments PC, decodes and executes; away from KBSR_ADDR the
word is the cell at PC and nothing else happens before the instruction. That the fetch polls is the spec's decision D9;
that HALTED, which has no step, is a fault with a name is the model's, log entry 7. -/
def Obligations.StepRunsTheDecodedInstruction : Prop :=
  (∀ s : State, s.run = .halted → step s = .fault .halted) ∧
  ∀ s : State, s.run = .running →
    step s = exec (decode (s.memRead s.pc).1) ((s.memRead s.pc).2.setPc (s.pc + 1)) ∧
    (s.pc ≠ kbsrAddr → step s = exec (decode (s.cell s.pc)) { s with pc := s.pc + 1 })

/-- A step with PC at KBSR_ADDR (R121, D9, vector M20): the fetch polls, so the word is 0x8000, which reports an
unsupported opcode, or 0x0000, which does nothing. What the poll does is R43, with the spec's decisions D8, D11 and D12,
and the fields that carry its draw are the model's, log entry 4. -/
def Obligations.FetchAtKbsrPollsFirst : Prop :=
  ∀ s : State, s.run = .running → s.pc = kbsrAddr → Memory.wf s.mem = true →
    ∃ t u, step s = .next t ∧ Polled s u ∧ t = { u with pc := 0xFE01, errors := t.errors } ∧
      t.errors = (if s.available then s.errors ++ [.unsupportedOpcode 0x8] else s.errors) ∧ SameRegsBut [] s t ∧
      t.cond = s.cond ∧ t.run = .running

/-- R120 and R125: only the HALT trap moves the run state, and only to HALTED, where there is no step (the fault's
name is the model's, log entry 7). -/
def Obligations.OnlyHaltEndsARun : Prop :=
  (∀ s : State, s.run = .halted → step s = .fault .halted) ∧
  (∀ s t : State, step s = .next t → s.run = .running ∧ (t.run = .halted ↔ decode s.fetch.1 = .halt))

/-- Every state has exactly one successor or none: a step goes on unless the core is HALTED or waits for input; each of
the two stops has its own name, and no word is refused (93_implementation_defined.md part 1; R70, R119, R125, R130). The names of the two
stops are the model's, log entries 7 and 8. -/
def Obligations.StepStopsOnlyHaltedOrWaiting : Prop :=
  ∀ s : State, Memory.wf s.mem = true →
    ((∃ t, step s = .next t) ↔ s.run = .running ∧ ¬ s.waiting) ∧
    (step s = .fault .halted ↔ s.run = .halted) ∧
    (step s = .fault .awaitingInput ↔ s.waiting) ∧
    (∀ r, step s ≠ .refused r)

/-- A word put where the next step fetches it is the word that step runs, from every state with canonical memory (the
placing is the model's, log entry 11). -/
def Obligations.PlacedWordIsRunNext : Prop :=
  ∀ (s : State) (w : Nat), w < 65536 → Memory.wf s.mem = true →
    step (s.withFetchWord 16 w) =
      exec (decode (BitVec.ofNat 16 w)) ((s.withFetchWord 16 w).setPc ((s.withFetchWord 16 w).pc + 1))

/-! ### The invariant (10_state.md R25, 20_memory.md R47) -/

/-- Every step keeps COND on one of its three codes (R25) and memory within its 65536 cells and in canonical form (R47;
the list form is the model's, log entry 9). -/
def Obligations.StepKeepsTheInvariant : Prop :=
  ∀ s t : State, s.Inv → step s = .next t → t.Inv

/-- The invariant holds at reset and at every launch. -/
def Obligations.EveryLaunchMeetsTheInvariant : Prop :=
  State.reset.Inv ∧
  ∀ (allocated : Bool) (g : Vector Word 8) (input : List Byte) (images : List (Option (List Byte))) (s : State),
    launch allocated g input images = some s → s.Inv

/-- R34, R35, R37 and R38, for every INIT_GPR: PC, COND, memory and the run state at creation; the state at reset is
one such state, whichever INIT_GPR log entry 2 takes. -/
def Obligations.ResetValuesAreTheSpecs : Prop :=
  (∀ g : Vector Word 8, (State.initial g).pc = 0x3000 ∧ (State.initial g).cond = 0x0002 ∧
    (∀ a, (State.initial g).cell a = 0x0000) ∧ (State.initial g).run = .running ∧
    (∀ r : RegIx, (State.initial g).reg r = g[r.val])) ∧
  ∃ g, State.reset = State.initial g

/-! ### Rules about the whole machine -/

/-- R27 and R28: the seven result-producing instructions leave COND at the code of their destination's final value; no
other instruction writes COND. That no trap does is the spec's decision D7. -/
def Obligations.CondWrittenByResultsAlone : Prop :=
  ∀ (i : Instr) (s t : State), exec i s = .next t →
    (∀ dr, Instr.condSource i = some dr → t.cond = condOf (t.reg dr)) ∧
    (Instr.condSource i = none → t.cond = s.cond)

/-- R22: no instruction writes a general register outside the table's: DR, R7 for the links, R0 for GETC and IN. -/
def Obligations.RegistersWrittenAsTabled : Prop :=
  ∀ (i : Instr) (s t : State), exec i s = .next t → SameRegsBut (Instr.destRegs i) s t

/-- R24: every instruction outside 41_control.md leaves the incremented PC. -/
def Obligations.PcChangedByControlAlone : Prop :=
  ∀ (i : Instr) (s t : State), exec i s = .next t → Instr.transfers i = false → t.pc = s.pc

/-- R46: the only cell an instruction writes is its store's, and the two device cells where it reads memory. -/
def Obligations.CellsWrittenByStoresAndPollsAlone : Prop :=
  ∀ (i : Instr) (s t : State), exec i s = .next t → ∀ a : Word, Instr.storeAddr s i ≠ some a →
    (Instr.readsMemory i = true → a ≠ kbsrAddr ∧ a ≠ kbdrAddr) → t.cell a = s.cell a

/-- R32 and R134, over a step: output and error channel only grow at the end, the latter by at most one diagnostic, and
the input stream loses at most its first byte. -/
def Obligations.StreamsMoveForwardOnly : Prop :=
  ∀ s t : State, Memory.wf s.mem = true → step s = .next t →
    (∃ more, t.output = s.output ++ more) ∧ (t.errors = s.errors ∨ ∃ d, t.errors = s.errors ++ [d]) ∧
    (t.input = s.input ∨ ∃ b, s.input = b :: t.input)

/-- The host may append input at any time (R156): bytes it appends behind a byte that is already there do not change
what a step does, and are still there after it. -/
def Obligations.LaterInputDoesNotChangeAStep : Prop :=
  ∀ (s : State) (more : List Byte), Memory.wf s.mem = true → s.input ≠ [] →
    step (s.supplyInput more) = onNext (step s) (State.supplyInput · more)

/-- R33 and R46: an instruction that reads no memory makes no poll, and what the host answers to polls has no effect on
it (the fields that carry the answers are the model's, log entry 4). -/
def Obligations.PollAnswersMatterToReadsAlone : Prop :=
  ∀ (i : Instr) (s : State) (answers : List Bool), Instr.readsMemory i = false →
    exec i (s.answerPolls answers) = onNext (exec i s) (State.answerPolls · answers) ∧
    ∀ t, exec i s = .next t → t.polls = s.polls ∧ t.pollAnswers = s.pollAnswers

/-- R55: a stored word is what the next fetch of that cell runs, without any fence. -/
def Obligations.StoresAreSeenByFetch : Prop :=
  ∀ (i : Instr) (sr : RegIx) (ea : Word) (s t u : State), Memory.wf s.mem = true →
    (∃ off9, i = .st sr off9) ∨ (∃ base off6, i = .str sr base off6) ∨ (∃ off9, i = .sti sr off9) →
    Instr.storeAddr s i = some ea → ea ≠ kbsrAddr → exec i s = .next t →
    u.mem = t.mem → u.pc = ea → u.run = .running →
    step u = exec (decode (s.reg sr)) { u with pc := ea + 1 }

/-- R159: two polls that find input before KBDR is read lose the first byte, whether their draws are fixed by the host or
free. The zero extension is the spec's decision D11; `available` reads the fields of the draw, which are the model's, log
entry 4. -/
def Obligations.SecondPollOverwritesKbdr : Prop :=
  ∀ (s : State) (a b : Byte) (rest : List Byte), Memory.wf s.mem = true → s.input = a :: b :: rest →
    s.available = true → (s.memRead kbsrAddr).2.available = true →
    (((s.memRead kbsrAddr).2.memRead kbsrAddr).2.memRead kbdrAddr).1 = b.setWidth 16 ∧
    ((s.memRead kbsrAddr).2.memRead kbsrAddr).2.input = rest

/-! ### The launch (70_reset_and_hazards.md) -/

/-- R151 and R152: an image of an origin and words, big-endian, with or without a trailing odd byte, puts word k at
origin + k as far as memory reaches, and changes no other cell. That words past the end and an odd byte are ignored is the
spec's decision D19; an image with no origin word, of which log entry 12 speaks, is not among these. -/
def Obligations.LoaderPlacesTheImage : Prop :=
  ∀ (m : Memory) (origin : Word) (words : List Word) (odd : List Byte), Memory.wf m = true → odd.length ≤ 1 →
    ∀ a : Nat, a < 65536 →
      Memory.lookup
          (loadImage m ((origin :: words).flatMap (fun w => [w.extractLsb 15 8, w.extractLsb 7 0]) ++ odd)) a =
        if h : origin.toNat ≤ a ∧ a - origin.toNat < words.length then words[a - origin.toNat] else Memory.lookup m a

/-- R132, R150, R153 and R154: a launch whose storage was allocated and whose images were all read starts at PC = 0x3000
with COND = ZERO, INIT_GPR and the images loaded in order over zero memory; with the storage not allocated or one image not
read there is no initial state. The order and the missing state are the spec's decisions D19 and D27. -/
def Obligations.LaunchLoadsInOrderOrNotAtAll : Prop :=
  ∀ (g : Vector Word 8) (input : List Byte) (images : List (Option (List Byte))),
    launch false g input images = none ∧
    (∀ allocated : Bool, none ∈ images → launch allocated g input images = none) ∧
    (∀ loaded : List (List Byte), images = loaded.map some →
      ∃ s, launch true g input images = some s ∧ s.pc = 0x3000 ∧ s.cond = 0x0002 ∧ s.run = .running ∧
        (∀ r : RegIx, s.reg r = g[r.val]) ∧ s.input = input ∧ s.output = [] ∧ s.errors = [] ∧
        s.mem = loaded.foldl loadImage [])
end

