-- ==== Sys2Proof/Laws/Encoding.lean ====
section
/-! SUPPORT. What a field reads as in a word put together from fields: each field placed reads back, and no other field
reaches into it. -/

namespace Sys2Proof

@[simp] theorem opcodeOf_opcodeCode (op : Opcode) : opcodeOf (opcodeCode op) = op := by cases op <;> rfl

theorem opcodeCode_opcodeOf (code : BitVec 4) : opcodeCode (opcodeOf code) = code := by
  revert code; decide

/-! ### Reading a field of a word -/

@[simp] theorem bitField_or (lo n : Nat) (v w : Word) : bitField lo n (v ||| w) = bitField lo n v ||| bitField lo n w := by
  ext i hi
  simp [bitField]

theorem bitField_placeField_same {n lo : Nat} (v : BitVec n) (h : lo + n ≤ 16) : bitField lo n (placeField lo v) = v := by
  ext i hi
  simp only [bitField, placeField, BitVec.getElem_extractLsb', BitVec.getLsbD_shiftLeft, BitVec.getLsbD_setWidth,
    Nat.add_sub_cancel_left]
  simp [show lo + i < 16 by omega, show i < 16 by omega, BitVec.getLsbD_eq_getElem hi]

theorem bitField_placeField_apart {n k lo at' : Nat} (v : BitVec k) (h : lo + n ≤ at' ∨ at' + k ≤ lo) :
    bitField lo n (placeField at' v) = 0 := by
  ext i hi
  simp only [bitField, placeField, BitVec.getElem_extractLsb', BitVec.getLsbD_shiftLeft, BitVec.getLsbD_setWidth]
  rcases h with h | h
  · simp; omega
  · have : v.getLsbD (lo + i - at') = false := BitVec.getLsbD_of_ge _ _ (by omega)
    simp [this]

/-- A register field is its bits as an index. -/
theorem regField_eq_toFin (lo : Nat) (w : Word) : regField lo w = (bitField lo 3 w).toFin := rfl

/-- The index of the bits of an index. -/
theorem toFin_ofNat_val (r : RegIx) : (BitVec.ofNat 3 r.val).toFin = r := by
  apply Fin.ext
  simp

/-- A single bit is its one-bit field. -/
theorem getLsbD_eq_bitField (lo : Nat) (w : Word) : w.getLsbD lo = (bitField lo 1 w).getLsbD 0 := by
  simp [bitField]

/-! ### Putting a field of a word back where it was -/

/-- A field put back holds the word's own bits there and 0 elsewhere. -/
theorem getLsbD_placeField_bitField {lo n : Nat} (w : Word) {j : Nat} (hj : j < 16) :
    (placeField lo (bitField lo n w)).getLsbD j = (decide (lo ≤ j ∧ j < lo + n) && w.getLsbD j) := by
  simp only [placeField, bitField, BitVec.getLsbD_shiftLeft, BitVec.getLsbD_setWidth, BitVec.getLsbD_extractLsb']
  by_cases h : lo ≤ j
  · by_cases h2 : j < lo + n
    · simp [h, h2, hj, show lo + (j - lo) = j by omega, show ¬ j < lo by omega, show j - lo < n by omega,
        show j - lo < 16 by omega]
    · simp [h, h2, show ¬ j - lo < n by omega]
  · simp [show j < lo by omega, show ¬ lo ≤ j by omega]

theorem placeReg_regField (lo : Nat) (w : Word) : placeReg lo (regField lo w) = placeField lo (bitField lo 3 w) := by
  unfold placeReg
  congr 1
  apply BitVec.eq_of_toNat_eq
  simp [regField, bitField]

theorem placeBit_getLsbD (lo : Nat) (w : Word) : placeBit lo (w.getLsbD lo) = placeField lo (bitField lo 1 w) := by
  unfold placeBit
  congr 1
  ext i hi
  obtain rfl : i = 0 := by omega
  simp [bitField]

theorem placeOp_opcodeOf (w : Word) :
    placeOp (opcodeOf (bitField opLo 4 w)) = placeField opLo (bitField opLo 4 w) := by
  unfold placeOp
  rw [opcodeCode_opcodeOf]

/-- Words that agree on a mask read alike in every field within it. -/
theorem bitField_eq_of_and_eq {lo n : Nat} {v w m : Word} (h : v &&& m = w &&& m)
    (hm : ∀ k, k < n → m.getLsbD (lo + k) = true) : bitField lo n v = bitField lo n w := by
  ext k hk
  have := congrArg (BitVec.getLsbD · (lo + k)) h
  simpa [bitField, BitVec.getElem_extractLsb', hm k hk] using this

end Sys2Proof
end

