-- ==== Sys2Proof/Laws/State.lean ====
section
/-! SUPPORT. The fields of the state after each update: one lemma a field an update, so that no proof unfolds a record
update; and what the registers and cells read as after each. -/

namespace Sys2Proof.Machine

/-! ### writeReg -/

@[simp] theorem State.writeReg_regs (s : State) (r : RegIx) (v : Word) : (s.writeReg r v).regs = s.regs.set r.val v := rfl
@[simp] theorem State.writeReg_pc (s : State) (r : RegIx) (v : Word) : (s.writeReg r v).pc = s.pc := rfl
@[simp] theorem State.writeReg_cond (s : State) (r : RegIx) (v : Word) : (s.writeReg r v).cond = s.cond := rfl
@[simp] theorem State.writeReg_run (s : State) (r : RegIx) (v : Word) : (s.writeReg r v).run = s.run := rfl
@[simp] theorem State.writeReg_mem (s : State) (r : RegIx) (v : Word) : (s.writeReg r v).mem = s.mem := rfl
@[simp] theorem State.writeReg_input (s : State) (r : RegIx) (v : Word) : (s.writeReg r v).input = s.input := rfl
@[simp] theorem State.writeReg_output (s : State) (r : RegIx) (v : Word) : (s.writeReg r v).output = s.output := rfl
@[simp] theorem State.writeReg_errors (s : State) (r : RegIx) (v : Word) : (s.writeReg r v).errors = s.errors := rfl
@[simp] theorem State.writeReg_pollAnswers (s : State) (r : RegIx) (v : Word) : (s.writeReg r v).pollAnswers = s.pollAnswers := rfl
@[simp] theorem State.writeReg_polls (s : State) (r : RegIx) (v : Word) : (s.writeReg r v).polls = s.polls := rfl

/-! ### setPc -/

@[simp] theorem State.setPc_regs (s : State) (v : Word) : (s.setPc v).regs = s.regs := rfl
@[simp] theorem State.setPc_pc (s : State) (v : Word) : (s.setPc v).pc = v := rfl
@[simp] theorem State.setPc_cond (s : State) (v : Word) : (s.setPc v).cond = s.cond := rfl
@[simp] theorem State.setPc_run (s : State) (v : Word) : (s.setPc v).run = s.run := rfl
@[simp] theorem State.setPc_mem (s : State) (v : Word) : (s.setPc v).mem = s.mem := rfl
@[simp] theorem State.setPc_input (s : State) (v : Word) : (s.setPc v).input = s.input := rfl
@[simp] theorem State.setPc_output (s : State) (v : Word) : (s.setPc v).output = s.output := rfl
@[simp] theorem State.setPc_errors (s : State) (v : Word) : (s.setPc v).errors = s.errors := rfl
@[simp] theorem State.setPc_pollAnswers (s : State) (v : Word) : (s.setPc v).pollAnswers = s.pollAnswers := rfl
@[simp] theorem State.setPc_polls (s : State) (v : Word) : (s.setPc v).polls = s.polls := rfl

/-! ### setCC -/

@[simp] theorem State.setCC_regs (s : State) (v : Word) : (s.setCC v).regs = s.regs := rfl
@[simp] theorem State.setCC_pc (s : State) (v : Word) : (s.setCC v).pc = s.pc := rfl
@[simp] theorem State.setCC_cond (s : State) (v : Word) : (s.setCC v).cond = condOf v := rfl
@[simp] theorem State.setCC_run (s : State) (v : Word) : (s.setCC v).run = s.run := rfl
@[simp] theorem State.setCC_mem (s : State) (v : Word) : (s.setCC v).mem = s.mem := rfl
@[simp] theorem State.setCC_input (s : State) (v : Word) : (s.setCC v).input = s.input := rfl
@[simp] theorem State.setCC_output (s : State) (v : Word) : (s.setCC v).output = s.output := rfl
@[simp] theorem State.setCC_errors (s : State) (v : Word) : (s.setCC v).errors = s.errors := rfl
@[simp] theorem State.setCC_pollAnswers (s : State) (v : Word) : (s.setCC v).pollAnswers = s.pollAnswers := rfl
@[simp] theorem State.setCC_polls (s : State) (v : Word) : (s.setCC v).polls = s.polls := rfl

/-! ### memWrite -/

@[simp] theorem State.memWrite_regs (s : State) (a v : Word) : (s.memWrite a v).regs = s.regs := rfl
@[simp] theorem State.memWrite_pc (s : State) (a v : Word) : (s.memWrite a v).pc = s.pc := rfl
@[simp] theorem State.memWrite_cond (s : State) (a v : Word) : (s.memWrite a v).cond = s.cond := rfl
@[simp] theorem State.memWrite_run (s : State) (a v : Word) : (s.memWrite a v).run = s.run := rfl
@[simp] theorem State.memWrite_mem (s : State) (a v : Word) : (s.memWrite a v).mem = Memory.store s.mem a.toNat v := rfl
@[simp] theorem State.memWrite_input (s : State) (a v : Word) : (s.memWrite a v).input = s.input := rfl
@[simp] theorem State.memWrite_output (s : State) (a v : Word) : (s.memWrite a v).output = s.output := rfl
@[simp] theorem State.memWrite_errors (s : State) (a v : Word) : (s.memWrite a v).errors = s.errors := rfl
@[simp] theorem State.memWrite_pollAnswers (s : State) (a v : Word) : (s.memWrite a v).pollAnswers = s.pollAnswers := rfl
@[simp] theorem State.memWrite_polls (s : State) (a v : Word) : (s.memWrite a v).polls = s.polls := rfl

/-! ### out -/

@[simp] theorem State.out_regs (s : State) (bytes : List Byte) : (s.out bytes).regs = s.regs := rfl
@[simp] theorem State.out_pc (s : State) (bytes : List Byte) : (s.out bytes).pc = s.pc := rfl
@[simp] theorem State.out_cond (s : State) (bytes : List Byte) : (s.out bytes).cond = s.cond := rfl
@[simp] theorem State.out_run (s : State) (bytes : List Byte) : (s.out bytes).run = s.run := rfl
@[simp] theorem State.out_mem (s : State) (bytes : List Byte) : (s.out bytes).mem = s.mem := rfl
@[simp] theorem State.out_input (s : State) (bytes : List Byte) : (s.out bytes).input = s.input := rfl
@[simp] theorem State.out_output (s : State) (bytes : List Byte) : (s.out bytes).output = s.output ++ bytes := rfl
@[simp] theorem State.out_errors (s : State) (bytes : List Byte) : (s.out bytes).errors = s.errors := rfl
@[simp] theorem State.out_pollAnswers (s : State) (bytes : List Byte) : (s.out bytes).pollAnswers = s.pollAnswers := rfl
@[simp] theorem State.out_polls (s : State) (bytes : List Byte) : (s.out bytes).polls = s.polls := rfl

/-! ### raiseDiag -/

@[simp] theorem State.raiseDiag_regs (s : State) (d : Diagnostic) : (s.raiseDiag d).regs = s.regs := rfl
@[simp] theorem State.raiseDiag_pc (s : State) (d : Diagnostic) : (s.raiseDiag d).pc = s.pc := rfl
@[simp] theorem State.raiseDiag_cond (s : State) (d : Diagnostic) : (s.raiseDiag d).cond = s.cond := rfl
@[simp] theorem State.raiseDiag_run (s : State) (d : Diagnostic) : (s.raiseDiag d).run = s.run := rfl
@[simp] theorem State.raiseDiag_mem (s : State) (d : Diagnostic) : (s.raiseDiag d).mem = s.mem := rfl
@[simp] theorem State.raiseDiag_input (s : State) (d : Diagnostic) : (s.raiseDiag d).input = s.input := rfl
@[simp] theorem State.raiseDiag_output (s : State) (d : Diagnostic) : (s.raiseDiag d).output = s.output := rfl
@[simp] theorem State.raiseDiag_errors (s : State) (d : Diagnostic) : (s.raiseDiag d).errors = s.errors ++ [d] := rfl
@[simp] theorem State.raiseDiag_pollAnswers (s : State) (d : Diagnostic) : (s.raiseDiag d).pollAnswers = s.pollAnswers := rfl
@[simp] theorem State.raiseDiag_polls (s : State) (d : Diagnostic) : (s.raiseDiag d).polls = s.polls := rfl

/-! ### halt -/

@[simp] theorem State.halt_regs (s : State) : (s.halt).regs = s.regs := rfl
@[simp] theorem State.halt_pc (s : State) : (s.halt).pc = s.pc := rfl
@[simp] theorem State.halt_cond (s : State) : (s.halt).cond = s.cond := rfl
@[simp] theorem State.halt_run (s : State) : (s.halt).run = .halted := rfl
@[simp] theorem State.halt_mem (s : State) : (s.halt).mem = s.mem := rfl
@[simp] theorem State.halt_input (s : State) : (s.halt).input = s.input := rfl
@[simp] theorem State.halt_output (s : State) : (s.halt).output = s.output := rfl
@[simp] theorem State.halt_errors (s : State) : (s.halt).errors = s.errors := rfl
@[simp] theorem State.halt_pollAnswers (s : State) : (s.halt).pollAnswers = s.pollAnswers := rfl
@[simp] theorem State.halt_polls (s : State) : (s.halt).polls = s.polls := rfl

/-! ### takeDraw -/

@[simp] theorem State.takeDraw_regs (s : State) : (s.takeDraw).regs = s.regs := rfl
@[simp] theorem State.takeDraw_pc (s : State) : (s.takeDraw).pc = s.pc := rfl
@[simp] theorem State.takeDraw_cond (s : State) : (s.takeDraw).cond = s.cond := rfl
@[simp] theorem State.takeDraw_run (s : State) : (s.takeDraw).run = s.run := rfl
@[simp] theorem State.takeDraw_mem (s : State) : (s.takeDraw).mem = s.mem := rfl
@[simp] theorem State.takeDraw_input (s : State) : (s.takeDraw).input = s.input := rfl
@[simp] theorem State.takeDraw_output (s : State) : (s.takeDraw).output = s.output := rfl
@[simp] theorem State.takeDraw_errors (s : State) : (s.takeDraw).errors = s.errors := rfl
@[simp] theorem State.takeDraw_pollAnswers (s : State) : (s.takeDraw).pollAnswers = s.pollAnswers.tail := rfl
@[simp] theorem State.takeDraw_polls (s : State) : (s.takeDraw).polls = s.polls + 1 := rfl

/-! ### setInput -/

@[simp] theorem State.setInput_regs (s : State) (rest : List Byte) : (s.setInput rest).regs = s.regs := rfl
@[simp] theorem State.setInput_pc (s : State) (rest : List Byte) : (s.setInput rest).pc = s.pc := rfl
@[simp] theorem State.setInput_cond (s : State) (rest : List Byte) : (s.setInput rest).cond = s.cond := rfl
@[simp] theorem State.setInput_run (s : State) (rest : List Byte) : (s.setInput rest).run = s.run := rfl
@[simp] theorem State.setInput_mem (s : State) (rest : List Byte) : (s.setInput rest).mem = s.mem := rfl
@[simp] theorem State.setInput_input (s : State) (rest : List Byte) : (s.setInput rest).input = rest := rfl
@[simp] theorem State.setInput_output (s : State) (rest : List Byte) : (s.setInput rest).output = s.output := rfl
@[simp] theorem State.setInput_errors (s : State) (rest : List Byte) : (s.setInput rest).errors = s.errors := rfl
@[simp] theorem State.setInput_pollAnswers (s : State) (rest : List Byte) : (s.setInput rest).pollAnswers = s.pollAnswers := rfl
@[simp] theorem State.setInput_polls (s : State) (rest : List Byte) : (s.setInput rest).polls = s.polls := rfl

/-! ### supplyInput -/

@[simp] theorem State.supplyInput_regs (s : State) (bytes : List Byte) : (s.supplyInput bytes).regs = s.regs := rfl
@[simp] theorem State.supplyInput_pc (s : State) (bytes : List Byte) : (s.supplyInput bytes).pc = s.pc := rfl
@[simp] theorem State.supplyInput_cond (s : State) (bytes : List Byte) : (s.supplyInput bytes).cond = s.cond := rfl
@[simp] theorem State.supplyInput_run (s : State) (bytes : List Byte) : (s.supplyInput bytes).run = s.run := rfl
@[simp] theorem State.supplyInput_mem (s : State) (bytes : List Byte) : (s.supplyInput bytes).mem = s.mem := rfl
@[simp] theorem State.supplyInput_input (s : State) (bytes : List Byte) : (s.supplyInput bytes).input = s.input ++ bytes := rfl
@[simp] theorem State.supplyInput_output (s : State) (bytes : List Byte) : (s.supplyInput bytes).output = s.output := rfl
@[simp] theorem State.supplyInput_errors (s : State) (bytes : List Byte) : (s.supplyInput bytes).errors = s.errors := rfl
@[simp] theorem State.supplyInput_pollAnswers (s : State) (bytes : List Byte) : (s.supplyInput bytes).pollAnswers = s.pollAnswers := rfl
@[simp] theorem State.supplyInput_polls (s : State) (bytes : List Byte) : (s.supplyInput bytes).polls = s.polls := rfl

/-! ### answerPolls -/

@[simp] theorem State.answerPolls_regs (s : State) (answers : List Bool) : (s.answerPolls answers).regs = s.regs := rfl
@[simp] theorem State.answerPolls_pc (s : State) (answers : List Bool) : (s.answerPolls answers).pc = s.pc := rfl
@[simp] theorem State.answerPolls_cond (s : State) (answers : List Bool) : (s.answerPolls answers).cond = s.cond := rfl
@[simp] theorem State.answerPolls_run (s : State) (answers : List Bool) : (s.answerPolls answers).run = s.run := rfl
@[simp] theorem State.answerPolls_mem (s : State) (answers : List Bool) : (s.answerPolls answers).mem = s.mem := rfl
@[simp] theorem State.answerPolls_input (s : State) (answers : List Bool) : (s.answerPolls answers).input = s.input := rfl
@[simp] theorem State.answerPolls_output (s : State) (answers : List Bool) : (s.answerPolls answers).output = s.output := rfl
@[simp] theorem State.answerPolls_errors (s : State) (answers : List Bool) : (s.answerPolls answers).errors = s.errors := rfl
@[simp] theorem State.answerPolls_pollAnswers (s : State) (answers : List Bool) : (s.answerPolls answers).pollAnswers = answers := rfl
@[simp] theorem State.answerPolls_polls (s : State) (answers : List Bool) : (s.answerPolls answers).polls = s.polls := rfl

/-! ### Registers read back -/

@[simp] theorem State.reg_writeReg_same (s : State) (r : RegIx) (v : Word) : (s.writeReg r v).reg r = v := by
  simp [State.reg, State.writeReg]

theorem State.reg_writeReg_other (s : State) {r q : RegIx} (v : Word) (h : q ≠ r) :
    (s.writeReg r v).reg q = s.reg q := by
  have hv : r.val ≠ q.val := fun e => h (Fin.ext e.symm)
  simp [State.reg, State.writeReg, Vector.getElem_set_ne, hv]

theorem State.reg_writeReg (s : State) (r q : RegIx) (v : Word) :
    (s.writeReg r v).reg q = if q = r then v else s.reg q := by
  by_cases h : q = r
  · simp [h]
  · simp [h, State.reg_writeReg_other]

@[simp] theorem State.reg_setPc (s : State) (v : Word) (q : RegIx) : (s.setPc v).reg q = s.reg q := rfl
@[simp] theorem State.reg_setCC (s : State) (v : Word) (q : RegIx) : (s.setCC v).reg q = s.reg q := rfl
@[simp] theorem State.reg_memWrite (s : State) (a v : Word) (q : RegIx) : (s.memWrite a v).reg q = s.reg q := rfl
@[simp] theorem State.reg_out (s : State) (bytes : List Byte) (q : RegIx) : (s.out bytes).reg q = s.reg q := rfl
@[simp] theorem State.reg_raiseDiag (s : State) (d : Diagnostic) (q : RegIx) : (s.raiseDiag d).reg q = s.reg q := rfl
@[simp] theorem State.reg_halt (s : State) (q : RegIx) : (s.halt).reg q = s.reg q := rfl
@[simp] theorem State.reg_takeDraw (s : State) (q : RegIx) : (s.takeDraw).reg q = s.reg q := rfl
@[simp] theorem State.reg_setInput (s : State) (rest : List Byte) (q : RegIx) : (s.setInput rest).reg q = s.reg q := rfl
@[simp] theorem State.reg_supplyInput (s : State) (bytes : List Byte) (q : RegIx) : (s.supplyInput bytes).reg q = s.reg q := rfl
@[simp] theorem State.reg_answerPolls (s : State) (answers : List Bool) (q : RegIx) : (s.answerPolls answers).reg q = s.reg q := rfl

/-! ### Cells after an update that leaves memory alone -/

@[simp] theorem State.cell_writeReg (s : State) (r : RegIx) (v : Word) (c : Word) : (s.writeReg r v).cell c = s.cell c := rfl
@[simp] theorem State.cell_setPc (s : State) (v : Word) (c : Word) : (s.setPc v).cell c = s.cell c := rfl
@[simp] theorem State.cell_setCC (s : State) (v : Word) (c : Word) : (s.setCC v).cell c = s.cell c := rfl
@[simp] theorem State.cell_out (s : State) (bytes : List Byte) (c : Word) : (s.out bytes).cell c = s.cell c := rfl
@[simp] theorem State.cell_raiseDiag (s : State) (d : Diagnostic) (c : Word) : (s.raiseDiag d).cell c = s.cell c := rfl
@[simp] theorem State.cell_halt (s : State) (c : Word) : (s.halt).cell c = s.cell c := rfl
@[simp] theorem State.cell_takeDraw (s : State) (c : Word) : (s.takeDraw).cell c = s.cell c := rfl
@[simp] theorem State.cell_setInput (s : State) (rest : List Byte) (c : Word) : (s.setInput rest).cell c = s.cell c := rfl
@[simp] theorem State.cell_supplyInput (s : State) (bytes : List Byte) (c : Word) : (s.supplyInput bytes).cell c = s.cell c := rfl
@[simp] theorem State.cell_answerPolls (s : State) (answers : List Bool) (c : Word) : (s.answerPolls answers).cell c = s.cell c := rfl

/-! ### writeResult -/

@[simp] theorem State.writeResult_cond (s : State) (dr : RegIx) (v : Word) : (s.writeResult dr v).cond = condOf v := by
  simp [State.writeResult]

@[simp] theorem State.writeResult_reg_same (s : State) (dr : RegIx) (v : Word) : (s.writeResult dr v).reg dr = v := by
  simp [State.writeResult]

theorem State.writeResult_reg_other (s : State) {dr q : RegIx} (v : Word) (h : q ≠ dr) :
    (s.writeResult dr v).reg q = s.reg q := by
  simp [State.writeResult, State.reg_writeReg_other _ _ h]

@[simp] theorem State.cell_writeResult (s : State) (dr : RegIx) (v c : Word) :
    (s.writeResult dr v).cell c = s.cell c := rfl

@[simp] theorem State.writeResult_pc (s : State) (dr : RegIx) (v : Word) : (s.writeResult dr v).pc = s.pc := rfl
@[simp] theorem State.writeResult_run (s : State) (dr : RegIx) (v : Word) : (s.writeResult dr v).run = s.run := rfl
@[simp] theorem State.writeResult_mem (s : State) (dr : RegIx) (v : Word) : (s.writeResult dr v).mem = s.mem := rfl
@[simp] theorem State.writeResult_input (s : State) (dr : RegIx) (v : Word) : (s.writeResult dr v).input = s.input := rfl
@[simp] theorem State.writeResult_output (s : State) (dr : RegIx) (v : Word) : (s.writeResult dr v).output = s.output := rfl
@[simp] theorem State.writeResult_errors (s : State) (dr : RegIx) (v : Word) : (s.writeResult dr v).errors = s.errors := rfl
@[simp] theorem State.writeResult_pollAnswers (s : State) (dr : RegIx) (v : Word) : (s.writeResult dr v).pollAnswers = s.pollAnswers := rfl
@[simp] theorem State.writeResult_polls (s : State) (dr : RegIx) (v : Word) : (s.writeResult dr v).polls = s.polls := rfl

end Sys2Proof.Machine
end

