-- ==== Sys2Proof/Laws/Flags.lean ====
section
/-! SUPPORT. SetCC always leaves a legal COND, and what the three codes say about the value. -/

namespace Sys2Proof.Machine

theorem condOf_legal (v : Word) : condOf v = condPositive ∨ condOf v = condZero ∨ condOf v = condNegative := by
  unfold condOf
  split
  · exact .inr (.inl rfl)
  · split
    · exact .inr (.inr rfl)
    · exact .inl rfl

theorem State.condLegal_setCC (s : State) (v : Word) : (s.setCC v).condLegal := condOf_legal v

theorem State.condLegal_writeResult (s : State) (dr : RegIx) (v : Word) : (s.writeResult dr v).condLegal := by
  simpa [State.condLegal] using condOf_legal v

end Sys2Proof.Machine
end

