-- ==== Sys2Proof/Laws/Memory.lean ====
section
/-! SUPPORT. The laws of memory: a read after a write, every other cell left alone, the canonical form kept, and equal
memories equal as lists. -/

namespace Sys2Proof.Machine

@[simp] theorem Memory.lookup_nil (k : Nat) : Memory.lookup [] k = blankCell := rfl

/-- A write leaves every other cell alone, whatever the list. -/
theorem Memory.lookup_store_other (m : Memory) {j k : Nat} (v : Word) (h : j ≠ k) :
    Memory.lookup (Memory.store m k v) j = Memory.lookup m j := by
  induction m with
  | nil => by_cases hv : v = blankCell <;> simp [Memory.store, Memory.lookup, hv, h]
  | cons c rest ih =>
    obtain ⟨i, u⟩ := c
    by_cases hlt : k < i
    · by_cases hv : v = blankCell <;> simp [Memory.store, Memory.lookup, hlt, hv, h]
    · by_cases heq : k = i
      · subst heq
        by_cases hv : v = blankCell <;> simp [Memory.store, Memory.lookup, hv, h]
      · simp [Memory.store, Memory.lookup, hlt, heq, ih]

/-- Below the addresses of a canonical list every cell is blank. -/
theorem Memory.lookup_of_lt {m : Memory} {lo k : Nat} (h : Memory.wfFrom lo m = true) (hk : k < lo) :
    Memory.lookup m k = blankCell := by
  induction m generalizing lo with
  | nil => rfl
  | cons c rest ih =>
    obtain ⟨i, u⟩ := c
    simp only [Memory.wfFrom, Bool.and_eq_true, decide_eq_true_eq] at h
    have hne : k ≠ i := by omega
    simp [Memory.lookup, hne, ih h.2 (by omega)]

/-- A read after a write gives the value written. -/
theorem Memory.lookup_store_same {m : Memory} {lo : Nat} (k : Nat) (v : Word) (h : Memory.wfFrom lo m = true) :
    Memory.lookup (Memory.store m k v) k = v := by
  induction m generalizing lo with
  | nil => by_cases hv : v = blankCell <;> simp [Memory.store, Memory.lookup, hv]
  | cons c rest ih =>
    obtain ⟨i, u⟩ := c
    simp only [Memory.wfFrom, Bool.and_eq_true, decide_eq_true_eq] at h
    have hrest : ∀ n, n ≤ i → Memory.lookup rest n = blankCell := fun n hn => Memory.lookup_of_lt h.2 (by omega)
    by_cases hlt : k < i
    · by_cases hv : v = blankCell
      · simp [Memory.store, Memory.lookup, hlt, hv, hrest k (by omega), show k ≠ i by omega]
      · simp [Memory.store, Memory.lookup, hlt, hv]
    · by_cases heq : k = i
      · subst heq
        by_cases hv : v = blankCell
        · simp [Memory.store, hv, hrest k (by omega)]
        · simp [Memory.store, Memory.lookup, hv]
      · simp [Memory.store, Memory.lookup, hlt, heq, ih h.2]

/-- A write keeps the canonical form. -/
theorem Memory.wfFrom_store {m : Memory} {lo k : Nat} (v : Word) (h : Memory.wfFrom lo m = true) (hlo : lo ≤ k)
    (hk : k < 65536) : Memory.wfFrom lo (Memory.store m k v) = true := by
  induction m generalizing lo with
  | nil => by_cases hv : v = blankCell <;> simp [Memory.store, Memory.wfFrom, hv, hlo, hk]
  | cons c rest ih =>
    obtain ⟨i, u⟩ := c
    simp only [Memory.wfFrom, Bool.and_eq_true, decide_eq_true_eq] at h
    obtain ⟨⟨⟨hli, hi⟩, hu⟩, hr⟩ := h
    by_cases hlt : k < i
    · by_cases hv : v = blankCell
      · simp [Memory.store, Memory.wfFrom, hlt, hv, hli, hi, hu, hr]
      · simp [Memory.store, Memory.wfFrom, hlt, hv, hlo, hk, hi, hu, hr, show k + 1 ≤ i by omega]
    · by_cases heq : k = i
      · subst heq
        by_cases hv : v = blankCell
        · have weaken : ∀ {a b : Nat} {l : Memory}, a ≤ b → Memory.wfFrom b l = true → Memory.wfFrom a l = true := by
            intro a b l hab hl
            cases l with
            | nil => rfl
            | cons d l =>
              obtain ⟨j, w⟩ := d
              simp only [Memory.wfFrom, Bool.and_eq_true, decide_eq_true_eq] at hl ⊢
              exact ⟨⟨⟨by omega, hl.1.1.2⟩, hl.1.2⟩, hl.2⟩
          simpa [Memory.store, hv] using weaken (by omega) hr
        · simp [Memory.store, Memory.wfFrom, hv, hlo, hk, hr]
      · have := ih hr (show i + 1 ≤ k by omega)
        simp [Memory.store, Memory.wfFrom, hlt, heq, hli, hi, hu, this]

theorem Memory.wf_store {m : Memory} {k : Nat} (v : Word) (h : Memory.wf m = true) (hk : k < 65536) :
    Memory.wf (Memory.store m k v) = true :=
  Memory.wfFrom_store v h (Nat.zero_le k) hk

/-- Canonical memories that read alike at every cell are the same list. -/
theorem Memory.eq_of_lookup_eq {m n : Memory} {lo : Nat} (hm : Memory.wfFrom lo m = true)
    (hn : Memory.wfFrom lo n = true) (h : ∀ k, Memory.lookup m k = Memory.lookup n k) : m = n := by
  induction m generalizing n lo with
  | nil =>
    cases n with
    | nil => rfl
    | cons d n =>
      obtain ⟨j, w⟩ := d
      simp only [Memory.wfFrom, Bool.and_eq_true, decide_eq_true_eq] at hn
      exact absurd (h j).symm (by simp [Memory.lookup, hn.1.2])
  | cons c m ih =>
    obtain ⟨i, u⟩ := c
    cases n with
    | nil =>
      simp only [Memory.wfFrom, Bool.and_eq_true, decide_eq_true_eq] at hm
      exact absurd (h i) (by simp [Memory.lookup, hm.1.2])
    | cons d n =>
      obtain ⟨j, w⟩ := d
      simp only [Memory.wfFrom, Bool.and_eq_true, decide_eq_true_eq] at hm hn
      have hij : i = j := by
        rcases Nat.lt_trichotomy i j with hlt | heq | hgt
        · have := h i
          simp [Memory.lookup, show i ≠ j by omega, Memory.lookup_of_lt hn.2 (show i < j + 1 by omega)] at this
          exact absurd this hm.1.2
        · exact heq
        · have := h j
          simp [Memory.lookup, show j ≠ i by omega, Memory.lookup_of_lt hm.2 (show j < i + 1 by omega)] at this
          exact absurd this.symm hn.1.2
      subst hij
      have huw : u = w := by simpa [Memory.lookup] using h i
      subst huw
      congr 1
      refine ih hm.2 hn.2 fun k => ?_
      by_cases hk : k ≤ i
      · rw [Memory.lookup_of_lt hm.2 (by omega), Memory.lookup_of_lt hn.2 (by omega)]
      · simpa [Memory.lookup, show k ≠ i by omega] using h k

/-! ### The same laws for cells of a state -/

theorem State.cell_memWrite_same {s : State} (a v : Word) (h : Memory.wf s.mem = true) : (s.memWrite a v).cell a = v :=
  Memory.lookup_store_same a.toNat v h

theorem State.cell_memWrite_other (s : State) {a c : Word} (v : Word) (h : c ≠ a) :
    (s.memWrite a v).cell c = s.cell c :=
  Memory.lookup_store_other s.mem v fun e => h (BitVec.eq_of_toNat_eq e)

theorem State.wf_memWrite {s : State} (a v : Word) (h : Memory.wf s.mem = true) :
    Memory.wf (s.memWrite a v).mem = true :=
  Memory.wf_store v h a.isLt

end Sys2Proof.Machine
end

