-- ==== Sys2Proof/Laws/Launch.lean ====
section
/-! SUPPORT. The loader keeps the canonical form of memory (R151 to R153), and when a launch has an initial state (R150,
R154). -/

namespace Sys2Proof.Machine

theorem Memory.wf_placeWords {m : Memory} (a : Nat) (words : List Word) (h : Memory.wf m = true) :
    Memory.wf (placeWords m a words) = true := by
  induction words generalizing m a with
  | nil => exact h
  | cons w rest ih =>
    unfold placeWords
    split
    · next ha => exact ih _ (Memory.wf_store _ h ha)
    · exact h

theorem Memory.wf_loadImage {m : Memory} (image : List Byte) (h : Memory.wf m = true) :
    Memory.wf (loadImage m image) = true := by
  unfold loadImage
  split
  · exact h
  · exact Memory.wf_placeWords _ _ h

theorem Memory.wf_loadImages {m : Memory} (images : List (List Byte)) (h : Memory.wf m = true) :
    Memory.wf (loadImages m images) = true := by
  unfold loadImages
  induction images generalizing m with
  | nil => exact h
  | cons image rest ih => exact ih (Memory.wf_loadImage image h)

/-- A launch has an initial state exactly when the storage was allocated and every image was read, and which one. -/
theorem launch_eq_some {allocated : Bool} {g : Vector Word 8} {input : List Byte} {images : List (Option (List Byte))}
    {s : State} : launch allocated g input images = some s ↔
      allocated = true ∧ ∃ loaded, images.mapM id = some loaded ∧
        { State.initial g with mem := loadImages [] loaded, input := input } = s := by
  cases allocated <;> simp [launch]

end Sys2Proof.Machine
end

