-- ==== Sys2Proof/Laws/Ops.lean ====
section
/-! SUPPORT. One spec lemma per shared operation: everything a poll, a MemRead, a trap sequence and a string scan can
do, cited by later proofs instead of unfolding them. -/

namespace Sys2Proof.Machine

/-! ### The poll (R43) -/

/-- A poll finds input, consumes one byte and writes both device cells; or finds none and clears KBSR. -/
theorem State.poll_cases (s : State) :
    (∃ b rest, s.pollDraw = true ∧ s.input = b :: rest ∧
      s.poll = ((s.takeDraw.setInput rest).memWrite kbsrAddr kbsrReady).memWrite kbdrAddr (zext8 b)) ∨
    (s.available = false ∧ s.poll = s.takeDraw.memWrite kbsrAddr kbsrIdle) := by
  unfold State.poll State.available
  cases hd : s.pollDraw with
  | false => right; simp [State.pollWith]
  | true =>
    cases hi : s.input with
    | nil => right; simp [State.pollWith, hi]
    | cons b rest => left; exact ⟨b, rest, by simp [State.pollWith, hi]⟩

@[simp] theorem State.poll_regs (s : State) : s.poll.regs = s.regs := by
  obtain ⟨b, rest, -, -, h⟩ | ⟨-, h⟩ := s.poll_cases <;> simp [h]
@[simp] theorem State.poll_pc (s : State) : s.poll.pc = s.pc := by
  obtain ⟨b, rest, -, -, h⟩ | ⟨-, h⟩ := s.poll_cases <;> simp [h]
@[simp] theorem State.poll_cond (s : State) : s.poll.cond = s.cond := by
  obtain ⟨b, rest, -, -, h⟩ | ⟨-, h⟩ := s.poll_cases <;> simp [h]
@[simp] theorem State.poll_run (s : State) : s.poll.run = s.run := by
  obtain ⟨b, rest, -, -, h⟩ | ⟨-, h⟩ := s.poll_cases <;> simp [h]
@[simp] theorem State.poll_output (s : State) : s.poll.output = s.output := by
  obtain ⟨b, rest, -, -, h⟩ | ⟨-, h⟩ := s.poll_cases <;> simp [h]
@[simp] theorem State.poll_errors (s : State) : s.poll.errors = s.errors := by
  obtain ⟨b, rest, -, -, h⟩ | ⟨-, h⟩ := s.poll_cases <;> simp [h]

@[simp] theorem State.reg_poll (s : State) (r : RegIx) : s.poll.reg r = s.reg r := by simp [State.reg]

theorem State.wf_poll {s : State} (h : Memory.wf s.mem = true) : Memory.wf s.poll.mem = true := by
  obtain ⟨b, rest, -, -, hp⟩ | ⟨-, hp⟩ := s.poll_cases
  · rw [hp]; exact State.wf_memWrite _ _ (State.wf_memWrite _ _ h)
  · rw [hp]; exact State.wf_memWrite _ _ h

/-- A poll writes no cell but the two device cells. -/
theorem State.cell_poll_other (s : State) {a : Word} (h1 : a ≠ kbsrAddr) (h2 : a ≠ kbdrAddr) :
    s.poll.cell a = s.cell a := by
  obtain ⟨b, rest, -, -, hp⟩ | ⟨-, hp⟩ := s.poll_cases
  · rw [hp, State.cell_memWrite_other _ _ h2, State.cell_memWrite_other _ _ h1]; rfl
  · rw [hp, State.cell_memWrite_other _ _ h1]; rfl

/-- What KBSR holds right after a poll. -/
theorem State.cell_poll_kbsr {s : State} (h : Memory.wf s.mem = true) :
    s.poll.cell kbsrAddr = if s.available then kbsrReady else kbsrIdle := by
  obtain ⟨b, rest, hd, hi, hp⟩ | ⟨ha, hp⟩ := s.poll_cases
  · rw [hp, State.cell_memWrite_other _ _ (by decide), State.cell_memWrite_same (s := s.takeDraw.setInput rest) _ _ h]
    simp [State.available, hd, hi]
  · rw [hp, State.cell_memWrite_same (s := s.takeDraw) _ _ h]
    simp [ha]

/-- A poll takes at most one byte from the input stream. -/
theorem State.input_poll (s : State) : s.poll.input = s.input ∨ ∃ b, s.input = b :: s.poll.input := by
  obtain ⟨b, rest, -, hi, hp⟩ | ⟨-, hp⟩ := s.poll_cases
  · exact .inr ⟨b, by simp [hp, hi]⟩
  · exact .inl (by simp [hp])

/-! ### MemRead (R43, R44) -/

@[simp] theorem State.memRead_snd (s : State) (a : Word) : (s.memRead a).2 = s.beforeRead a := rfl
@[simp] theorem State.memRead_fst (s : State) (a : Word) : (s.memRead a).1 = (s.beforeRead a).cell a := rfl

@[simp] theorem State.beforeRead_kbsr (s : State) : s.beforeRead kbsrAddr = s.poll := by simp [State.beforeRead]

theorem State.beforeRead_of_ne (s : State) {a : Word} (h : a ≠ kbsrAddr) : s.beforeRead a = s := by
  simp [State.beforeRead, h]

/-- A property that a state has with its poll, it has before and after any read. -/
theorem State.beforeRead_induct {P : State → Prop} {s : State} (a : Word) (hs : P s) (hp : P s.poll) :
    P (s.beforeRead a) := by
  unfold State.beforeRead
  split
  · exact hp
  · exact hs

@[simp] theorem State.beforeRead_regs (s : State) (a : Word) : (s.beforeRead a).regs = s.regs :=
  State.beforeRead_induct (P := fun u => u.regs = s.regs) a rfl s.poll_regs
@[simp] theorem State.beforeRead_pc (s : State) (a : Word) : (s.beforeRead a).pc = s.pc :=
  State.beforeRead_induct (P := fun u => u.pc = s.pc) a rfl s.poll_pc
@[simp] theorem State.beforeRead_cond (s : State) (a : Word) : (s.beforeRead a).cond = s.cond :=
  State.beforeRead_induct (P := fun u => u.cond = s.cond) a rfl s.poll_cond
@[simp] theorem State.beforeRead_run (s : State) (a : Word) : (s.beforeRead a).run = s.run :=
  State.beforeRead_induct (P := fun u => u.run = s.run) a rfl s.poll_run
@[simp] theorem State.beforeRead_output (s : State) (a : Word) : (s.beforeRead a).output = s.output :=
  State.beforeRead_induct (P := fun u => u.output = s.output) a rfl s.poll_output
@[simp] theorem State.beforeRead_errors (s : State) (a : Word) : (s.beforeRead a).errors = s.errors :=
  State.beforeRead_induct (P := fun u => u.errors = s.errors) a rfl s.poll_errors
@[simp] theorem State.reg_beforeRead (s : State) (a : Word) (r : RegIx) : (s.beforeRead a).reg r = s.reg r := by
  simp [State.reg]

theorem State.wf_beforeRead {s : State} (a : Word) (h : Memory.wf s.mem = true) :
    Memory.wf (s.beforeRead a).mem = true :=
  State.beforeRead_induct (P := fun u => Memory.wf u.mem = true) a h (State.wf_poll h)

theorem State.cell_beforeRead_other (s : State) {a c : Word} (h1 : c ≠ kbsrAddr) (h2 : c ≠ kbdrAddr) :
    (s.beforeRead a).cell c = s.cell c :=
  State.beforeRead_induct (P := fun u => u.cell c = s.cell c) a rfl (State.cell_poll_other s h1 h2)

theorem State.input_beforeRead (s : State) (a : Word) :
    (s.beforeRead a).input = s.input ∨ ∃ b, s.input = b :: (s.beforeRead a).input :=
  State.beforeRead_induct (P := fun u => u.input = s.input ∨ ∃ b, s.input = b :: u.input) a (.inl rfl) s.input_poll

/-! ### What a shared operation does to the whole state, in the terms of Safety.lean -/

theorem resultWritten_writeResult (s : State) (dr : RegIx) (v : Word) : ResultWritten dr v s (s.writeResult dr v) :=
  ⟨by simp, fun _ hr => State.writeResult_reg_other _ _ (by simpa using hr), by simp, rfl, rfl, fun _ _ => rfl,
    ⟨rfl, rfl, rfl⟩, rfl, rfl⟩

theorem keptBut_memWrite (s : State) (a v : Word) : KeptBut [] [a] s (s.memWrite a v) :=
  ⟨fun _ _ => rfl, fun _ hc => State.cell_memWrite_other _ _ (by simpa using hc), rfl, rfl, ⟨rfl, rfl, rfl⟩, rfl, rfl⟩

theorem polled_poll {s : State} (h : Memory.wf s.mem = true) : Polled s s.poll := by
  obtain ⟨b, rest, hd, hi, hp⟩ | ⟨ha, hp⟩ := s.poll_cases
  · have ha : s.available = true := by simp [State.available, hd, hi]
    refine ⟨fun _ => ⟨b, by simp [hp, hi], ?_, ?_⟩, fun h => by simp [ha] at h, ?_, by simp, by simp, by simp [hp],
      by simp [hp]⟩
    · rw [State.cell_poll_kbsr h, ha]; rfl
    · rw [hp]
      exact State.cell_memWrite_same (s := (s.takeDraw.setInput rest).memWrite kbsrAddr kbsrReady) _ _
        (State.wf_memWrite _ _ h)
    · intro a ha
      simp only [List.mem_cons, List.not_mem_nil, or_false, not_or] at ha
      exact State.cell_poll_other s ha.1 ha.2
  · refine ⟨fun h => by simp [ha] at h, fun _ => ⟨by simp [hp], ?_, ?_⟩, ?_, by simp, by simp, by simp [hp],
      by simp [hp]⟩
    · rw [State.cell_poll_kbsr h, ha]; rfl
    · rw [hp, State.cell_memWrite_other _ _ (by decide)]; rfl
    · intro a ha
      simp only [List.mem_cons, List.not_mem_nil, or_false, not_or] at ha
      exact State.cell_poll_other s ha.1 ha.2

theorem State.cell_poll_kbsrValue {s : State} (h : Memory.wf s.mem = true) : s.poll.cell kbsrAddr = s.kbsrValue :=
  State.cell_poll_kbsr h

/-- The pointer a poll leaves is never a device cell, so an indirect access polls at most once. -/
theorem State.kbsrValue_ne (s : State) : s.kbsrValue ≠ kbsrAddr ∧ s.kbsrValue ≠ kbdrAddr := by
  unfold State.kbsrValue
  split <;> decide

theorem loadedFrom_loadFrom (s : State) (dr : RegIx) (ea : Word) : LoadedFrom dr ea s (s.loadFrom dr ea) := by
  constructor
  · intro h
    simp only [State.loadFrom, State.memRead, State.beforeRead_of_ne _ h]
    exact resultWritten_writeResult _ _ _
  · rintro rfl h
    simp only [State.loadFrom, State.memRead, State.beforeRead_kbsr, State.cell_poll_kbsrValue h]
    refine ⟨by simp, fun r hr => ?_, by simp, by simp, by simp, polled_poll h⟩
    rw [State.writeResult_reg_other _ _ (by simpa using hr)]
    simp

/-! ### The fetch (R121) -/

theorem State.fetch_of_ne (s : State) (h : s.pc ≠ kbsrAddr) : s.fetch = (s.cell s.pc, s.setPc (s.pc + 1)) := by
  simp [State.fetch, State.beforeRead_of_ne _ h]

theorem State.fetch_word_kbsr {s : State} (h : s.pc = kbsrAddr) (hw : Memory.wf s.mem = true) :
    s.fetch.1 = s.kbsrValue := by
  simp [State.fetch, h, State.cell_poll_kbsrValue hw]

theorem step_of_running {s : State} (h : s.run = .running) : step s = exec (decode s.fetch.1) s.fetch.2 := by
  simp [step, h]

/-! ### Traps (R110) -/

@[simp] theorem onNext_next (s : State) (f : State → State) : onNext (.next s) f = .next (f s) := rfl
@[simp] theorem onNext_fault (r : Fault) (f : State → State) : onNext (.fault r) f = .fault r := rfl

/-- A trap sequence goes on exactly when its routine does, from the entered state, and returns from where it left. -/
theorem trapSequence_eq_next {vect : Byte} {routine : State → Host.Outcome State Fault Refusal} {s t : State} :
    trapSequence vect routine s = .next t ↔ ∃ u, routine (trapEnter vect s) = .next u ∧ t = trapReturn u := by
  unfold trapSequence onNext
  cases routine (trapEnter vect s) <;> simp [eq_comm]

@[simp] theorem trapEnter_input (vect : Byte) (s : State) : (trapEnter vect s).input = s.input := rfl
@[simp] theorem trapEnter_output (vect : Byte) (s : State) : (trapEnter vect s).output = s.output := rfl
@[simp] theorem trapEnter_errors (vect : Byte) (s : State) : (trapEnter vect s).errors = s.errors := rfl
@[simp] theorem trapEnter_mem (vect : Byte) (s : State) : (trapEnter vect s).mem = s.mem := rfl
@[simp] theorem trapEnter_cond (vect : Byte) (s : State) : (trapEnter vect s).cond = s.cond := rfl
@[simp] theorem trapEnter_run (vect : Byte) (s : State) : (trapEnter vect s).run = s.run := rfl
@[simp] theorem trapEnter_pollAnswers (vect : Byte) (s : State) : (trapEnter vect s).pollAnswers = s.pollAnswers := rfl
@[simp] theorem trapEnter_polls (vect : Byte) (s : State) : (trapEnter vect s).polls = s.polls := rfl
@[simp] theorem trapEnter_regs (vect : Byte) (s : State) : (trapEnter vect s).regs = (s.writeReg linkReg s.pc).regs :=
  rfl

@[simp] theorem reg_trapEnter (vect : Byte) (s : State) (r : RegIx) :
    (trapEnter vect s).reg r = if r = 7 then s.pc else s.reg r := by
  simp [trapEnter, State.reg_writeReg, linkReg]

/-- Everything a built-in routine can do, entered with R7 holding the return address: it writes no register but R0, and
R0 only where it takes a byte, no COND and no cell; it writes output at the end, adds at most one diagnostic, and takes
at most the first byte of input. -/
theorem trapRoutine_next {vect : Byte} {s u : State} (h : trapRoutine vect s = .next u) :
    (∀ r, r ≠ 0 ∨ (vect ≠ vecGetc ∧ vect ≠ vecIn) → u.reg r = s.reg r) ∧ u.cond = s.cond ∧ u.mem = s.mem ∧
    u.pollAnswers = s.pollAnswers ∧ u.polls = s.polls ∧
    (u.input = s.input ∨ (vect = vecGetc ∨ vect = vecIn) ∧ ∃ b, s.input = b :: u.input) ∧
    (∃ more, u.output = s.output ++ more) ∧ (u.errors = s.errors ∨ ∃ d, u.errors = s.errors ++ [d]) ∧
    u.run = if vect = vecHalt then .halted else s.run := by
  unfold trapRoutine at h
  by_cases h1 : vect = vecGetc
  · subst h1
    rw [if_pos rfl] at h
    cases hi : s.input with
    | nil => simp [serviceGetc, State.inGet, hi] at h
    | cons b rest =>
      simp only [serviceGetc, State.inGet, hi, State.giveChar, trapSetsFlags, Bool.false_eq_true, if_false,
        Host.Outcome.next.injEq] at h
      subst h
      exact ⟨fun r hr => by simp [State.reg_writeReg, hr.resolve_right (by simp)], rfl, rfl, rfl, rfl,
        .inr ⟨.inl rfl, b, rfl⟩, ⟨[], by simp⟩, .inl rfl, rfl⟩
  rw [if_neg h1] at h
  by_cases h2 : vect = vecOut
  · subst h2
    rw [if_pos rfl] at h
    cases h
    exact ⟨fun r _ => rfl, rfl, rfl, rfl, rfl, .inl rfl, ⟨_, rfl⟩, .inl rfl, rfl⟩
  rw [if_neg h2] at h
  by_cases h3 : vect = vecPuts
  · subst h3
    rw [if_pos rfl] at h
    cases h
    exact ⟨fun r _ => rfl, rfl, rfl, rfl, rfl, .inl rfl, ⟨_, rfl⟩, .inl rfl, rfl⟩
  rw [if_neg h3] at h
  by_cases h4 : vect = vecIn
  · subst h4
    rw [if_pos rfl] at h
    cases hi : s.input with
    | nil => simp [serviceIn, State.inGet, hi] at h
    | cons b rest =>
      simp only [serviceIn, State.inGet, State.out_input, hi, State.giveChar, trapSetsFlags, Bool.false_eq_true,
        if_false, Host.Outcome.next.injEq] at h
      subst h
      exact ⟨fun r hr => by simp [State.reg_writeReg, hr.resolve_right (by simp)], rfl, rfl, rfl, rfl,
        .inr ⟨.inr rfl, b, rfl⟩, ⟨inPrompt ++ [b], by simp⟩, .inl rfl, rfl⟩
  rw [if_neg h4] at h
  by_cases h5 : vect = vecPutsp
  · subst h5
    rw [if_pos rfl] at h
    cases h
    exact ⟨fun r _ => rfl, rfl, rfl, rfl, rfl, .inl rfl, ⟨_, rfl⟩, .inl rfl, rfl⟩
  rw [if_neg h5] at h
  by_cases h6 : vect = vecHalt
  · subst h6
    rw [if_pos rfl] at h
    cases h
    exact ⟨fun r _ => rfl, rfl, rfl, rfl, rfl, .inl rfl, ⟨_, rfl⟩, .inl rfl, rfl⟩
  rw [if_neg h6] at h
  cases h
  exact ⟨fun r _ => rfl, rfl, rfl, rfl, rfl, .inl rfl, ⟨[], by simp⟩, .inr ⟨_, rfl⟩, by simp [h6]⟩

/-- A decoded TRAP runs as TRAP with its vector: the six services' terms are cases of the one dispatch (R110). -/
theorem exec_trapInstr (vect : Byte) (s : State) : exec (trapInstr vect) s = exec (.trap vect) s := by
  unfold trapInstr
  repeat' (split; next h => subst h; rfl)
  rfl

/-! ### The string scans (R113) -/

/-- Enough fuel is enough: the bound on the visits never shows. -/
theorem scanCells_fuel (m : Memory) {n k : Nat} {a : Word} (hn : 65536 ≤ n + a.toNat) (hk : 65536 ≤ k + a.toNat) :
    scanCells m n a = scanCells m k a := by
  induction n generalizing k a with
  | zero => have := a.isLt; omega
  | succ n ih =>
    cases k with
    | zero => have := a.isLt; omega
    | succ k =>
      by_cases hlast : a = lastCell
      · simp [scanCells, hlast]
      · have hne : a.toNat ≠ 65535 := fun e => hlast (BitVec.eq_of_toNat_eq (by rw [e]; rfl))
        have hlt := a.isLt
        have hsucc : (a + 1).toNat = a.toNat + 1 := by
          rw [BitVec.toNat_add]
          exact Nat.mod_eq_of_lt (by simp; omega)
        rw [scanCells, scanCells, ih (k := k) (a := a + 1) (by omega) (by omega)]

/-- The scan is the loop of R113: stop at a zero cell, else the cell, then stop at the boundary or go on. -/
theorem scanFrom_eq (m : Memory) (a : Word) :
    scanFrom m a = if Memory.lookup m a.toNat = 0 then [] else
      Memory.lookup m a.toNat :: (if a = lastCell then [] else scanFrom m (a + 1)) := by
  unfold scanFrom
  rw [scanCells]
  by_cases h : a = lastCell
  · simp [h]
  · have hne : a.toNat ≠ 65535 := fun e => h (BitVec.eq_of_toNat_eq (by rw [e]; rfl))
    have hlt := a.isLt
    have hs : (a + 1).toNat = a.toNat + 1 := by
      rw [BitVec.toNat_add]
      exact Nat.mod_eq_of_lt (by simp; omega)
    rw [scanCells_fuel m (n := 65535) (k := 65536) (a := a + 1) (by omega) (by omega)]

end Sys2Proof.Machine
end

