-- ==== Sys2Proof/Laws/PerInstr.lean ====
section
/-! SUPPORT. The per-instruction family EncodedOpcode: bits 15:12 of an instruction's word select its handler (R61, R65,
R122), one lemma a constructor. -/

namespace Sys2Proof.Laws

/-- The opcode whose handler runs the instruction (R122). -/
def handlerOf : Instr → Opcode
  | .addReg _ _ _ | .addImm _ _ _ => .add
  | .andReg _ _ _ | .andImm _ _ _ => .and
  | .not _ _ => .not
  | .br _ _ _ _ => .br
  | .jmp _ => .jmp
  | .jsr _ | .jsrr _ => .jsr
  | .ld _ _ => .ld
  | .ldi _ _ => .ldi
  | .ldr _ _ _ => .ldr
  | .lea _ _ => .lea
  | .st _ _ => .st
  | .sti _ _ => .sti
  | .str _ _ _ => .str
  | .trap _ | .getc | .out | .puts | .inChar | .putsp | .halt => .trap
  | .reserved8 => .reserved8
  | .reservedD => .reservedD

/-- The opcode placed at bits 15:12 is the opcode read there. -/
@[simp] theorem bitField_placeOp (op : Opcode) : bitField opLo 4 (placeOp op) = opcodeCode op :=
  bitField_placeField_same _ (by decide)

/-- No field below bit 12 reaches into the opcode. -/
@[simp] theorem bitField_op_placeField {k lo : Nat} (v : BitVec k) (h : lo + k ≤ 12) :
    bitField opLo 4 (placeField lo v) = 0 :=
  bitField_placeField_apart v (.inr h)

@[simp] theorem bitField_op_placeReg {lo : Nat} (r : RegIx) (h : lo + 3 ≤ 12) : bitField opLo 4 (placeReg lo r) = 0 :=
  bitField_op_placeField _ h

@[simp] theorem bitField_op_placeBit {lo : Nat} (b : Bool) (h : lo + 1 ≤ 12) : bitField opLo 4 (placeBit lo b) = 0 :=
  bitField_op_placeField _ h

namespace EncodedOpcode

/-- The opcode field of the instruction's word is its handler's. -/
def Statement (i : Instr) : Prop := opcodeOf (bitField opLo 4 (encode i)) = handlerOf i

theorem addReg (dr sr1 sr2 : RegIx) : Statement (.addReg dr sr1 sr2) := by
  simp (disch := decide) [Statement, encode, handlerOf]

theorem addImm (dr sr1 : RegIx) (imm5 : BitVec 5) : Statement (.addImm dr sr1 imm5) := by
  simp (disch := decide) [Statement, encode, handlerOf]

theorem andReg (dr sr1 sr2 : RegIx) : Statement (.andReg dr sr1 sr2) := by
  simp (disch := decide) [Statement, encode, handlerOf]

theorem andImm (dr sr1 : RegIx) (imm5 : BitVec 5) : Statement (.andImm dr sr1 imm5) := by
  simp (disch := decide) [Statement, encode, handlerOf]

theorem not (dr sr : RegIx) : Statement (.not dr sr) := by
  simp (disch := decide) [Statement, encode, handlerOf]

theorem br (n z p : Bool) (off9 : BitVec 9) : Statement (.br n z p off9) := by
  simp (disch := decide) [Statement, encode, handlerOf]

theorem jmp (base : RegIx) : Statement (.jmp base) := by
  simp (disch := decide) [Statement, encode, handlerOf]

theorem jsr (off11 : BitVec 11) : Statement (.jsr off11) := by
  simp (disch := decide) [Statement, encode, handlerOf]

theorem jsrr (base : RegIx) : Statement (.jsrr base) := by
  simp (disch := decide) [Statement, encode, handlerOf]

theorem ld (dr : RegIx) (off9 : BitVec 9) : Statement (.ld dr off9) := by
  simp (disch := decide) [Statement, encode, handlerOf]

theorem ldi (dr : RegIx) (off9 : BitVec 9) : Statement (.ldi dr off9) := by
  simp (disch := decide) [Statement, encode, handlerOf]

theorem ldr (dr base : RegIx) (off6 : BitVec 6) : Statement (.ldr dr base off6) := by
  simp (disch := decide) [Statement, encode, handlerOf]

theorem lea (dr : RegIx) (off9 : BitVec 9) : Statement (.lea dr off9) := by
  simp (disch := decide) [Statement, encode, handlerOf]

theorem st (sr : RegIx) (off9 : BitVec 9) : Statement (.st sr off9) := by
  simp (disch := decide) [Statement, encode, handlerOf]

theorem sti (sr : RegIx) (off9 : BitVec 9) : Statement (.sti sr off9) := by
  simp (disch := decide) [Statement, encode, handlerOf]

theorem str (sr base : RegIx) (off6 : BitVec 6) : Statement (.str sr base off6) := by
  simp (disch := decide) [Statement, encode, handlerOf]

theorem trap (vect : Byte) : Statement (.trap vect) := by
  simp (disch := decide) [Statement, encode, encodeTrap, handlerOf]

theorem getc : Statement .getc := by unfold Statement; decide

theorem out : Statement .out := by unfold Statement; decide

theorem puts : Statement .puts := by unfold Statement; decide

theorem inChar : Statement .inChar := by unfold Statement; decide

theorem putsp : Statement .putsp := by unfold Statement; decide

theorem halt : Statement .halt := by unfold Statement; decide

theorem reserved8 : Statement .reserved8 := by unfold Statement; decide

theorem reservedD : Statement .reservedD := by unfold Statement; decide

end EncodedOpcode

end Sys2Proof.Laws
end

