-- ==== Sys2Proof/Tests/Slice0.lean ====
section
/-! SUPPORT. The model's own tests. Expected results are the spec's: the worked examples and derived vectors of
95_test_vectors.md (S, A, C, M, T, Q, B), the rules' own examples, and words written out bit by bit from R66. Then the
witnesses: for each obligation with hypotheses, a concrete state and operands that meet them together. -/

namespace Sys2Proof.Tests

open Sys2Proof.Machine

/-! ### WellFormed: the one check, and the terms it refuses -/

theorem test_wellFormed_refuses_service_vectors :
    Instr.wellFormed (.trap 0x20) = false ∧ Instr.wellFormed (.trap 0x21) = false ∧
    Instr.wellFormed (.trap 0x22) = false ∧ Instr.wellFormed (.trap 0x23) = false ∧
    Instr.wellFormed (.trap 0x24) = false ∧ Instr.wellFormed (.trap 0x25) = false := by decide

theorem test_wellFormed_takes_other_vectors :
    Instr.wellFormed (.trap 0x26) = true ∧ Instr.wellFormed (.trap 0x1F) = true ∧
    Instr.wellFormed (.trap 0x00) = true := by decide

/-! ### Decoding: every constructor from a word written out from R66, ignored bits set where there are any -/

theorem test_decode_operate :
    decode 0b0001_010_001_0_00_011 = .addReg 2 1 3 ∧ decode 0b0001_010_001_0_11_011 = .addReg 2 1 3 ∧
    decode 0b0001_010_001_1_00011 = .addImm 2 1 0b00011 ∧ decode 0b0101_010_000_0_00_001 = .andReg 2 0 1 ∧
    decode 0b0101_001_010_1_11111 = .andImm 1 2 0b11111 ∧ decode 0b1001_001_010_111111 = .not 1 2 ∧
    decode 0b1001_001_010_000000 = .not 1 2 := by decide

theorem test_decode_control :
    decode 0b0000_0_1_0_000000101 = .br false true false 5 ∧ decode 0b0000_1_0_1_100000000 = .br true false true 0x100 ∧
    decode 0b1100_111_011_111111 = .jmp 3 ∧ decode 0b0100_1_00000010000 = .jsr 16 ∧
    decode 0b0100_1_11111000000 = .jsr 0b11111000000 ∧ decode 0b0100_0_11_100_010101 = .jsrr 4 := by decide

theorem test_decode_memory :
    decode 0b0010_001_000000100 = .ld 1 4 ∧ decode 0b1010_011_000000011 = .ldi 3 3 ∧
    decode 0b0110_100_010_100000 = .ldr 4 2 0b100000 ∧ decode 0b1110_000_000000010 = .lea 0 2 ∧
    decode 0b0011_010_000000011 = .st 2 3 ∧ decode 0b1011_001_111111110 = .sti 1 0b111111110 ∧
    decode 0b0111_110_110_011111 = .str 6 6 31 := by decide

theorem test_decode_trap :
    decode 0b1111_0000_00100000 = .getc ∧ decode 0b1111_0000_00100001 = .out ∧ decode 0b1111_0000_00100010 = .puts ∧
    decode 0b1111_0000_00100011 = .inChar ∧ decode 0b1111_0000_00100100 = .putsp ∧
    decode 0b1111_1111_00100101 = .halt ∧ decode 0b1111_0000_00100110 = .trap 0x26 ∧
    decode 0b1111_1111_00000000 = .trap 0x00 := by decide

theorem test_decode_reserved :
    decode 0b1000_000000000000 = .reserved8 ∧ decode 0b1000_111111111111 = .reserved8 ∧
    decode 0b1101_111111111111 = .reservedD := by decide

/-- The assembler's values of the ignored bits (R66, R73, R84). -/
theorem test_encode_ignored_bits :
    encode (.not 1 2) = 0x92BF ∧ encode (.jmp 7) = 0xC1C0 ∧ encode (.jsrr 7) = 0x41C0 ∧ encode .halt = 0xF025 ∧
    encode (.addReg 2 1 3) = 0x1443 ∧ encode (.andReg 2 0 1) = 0x5401 ∧ encode .reserved8 = 0x8000 := by decide

theorem test_decodeTableWord :
    decodeTableWord 16 0x1463 = some (.addImm 2 1 3) ∧ decodeTableWord 17 0x1463 = none := by decide

theorem test_decodeWords :
    decodeWords [] = .error .noWord ∧ decodeWords [0x1463, 0xF025] = .ok (.addImm 2 1 3, [0xF025]) := by
  constructor <;> rfl

/-- The sign-extension table of section 2.1. -/
theorem test_sext :
    sext 0x10#5 = 0xFFF0 ∧ sext 0x0F#5 = 0x000F ∧ sext 0x20#6 = 0xFFE0 ∧ sext 0x1F#6 = 0x001F ∧
    sext 0x100#9 = 0xFF00 ∧ sext 0x0FF#9 = 0x00FF ∧ sext 0x400#11 = 0xFC00 ∧ sext 0x3FF#11 = 0x03FF := by decide

/-! ### One step on a small state -/

/-- The vectors' start state: a word at an address with PC there, then registers and cells set one after another. -/
def start (pc word : Word) (regs : List (RegIx × Word) := []) (cells : List (Word × Word) := []) : State :=
  cells.foldl (fun t p => t.memWrite p.1 p.2)
    (regs.foldl (fun t p => t.writeReg p.1 p.2) ({ State.reset with pc := pc }.memWrite pc word))

/-- What is read off the next state; none where there is no next state. -/
def after {α : Type} (o : Host.Outcome State Fault Refusal) (f : State → α) : Option α :=
  match o with
  | .next t => some (f t)
  | _ => none

/-- The reason a step has no next state. -/
def stopped (o : Host.Outcome State Fault Refusal) : Option Fault :=
  match o with
  | .fault r => some r
  | _ => none

/-- A1. -/
theorem test_addReg_wraps :
    after (step (start 0x3000 0x1443 [(1, 0xFFFF), (3, 1)])) (fun t => (t.reg 2, t.cond, t.pc)) =
      some (0x0000, 0x0002, 0x3001) := by decide

/-- A3. -/
theorem test_addReg_doubles :
    after (step (start 0x3000 0x16C3 [(3, 0x4000)])) (fun t => (t.reg 3, t.cond)) =
      some (0x8000, 0x0004) := by decide

/-- S3, the source's own. -/
theorem test_addImm_source :
    after (step (start 0x3000 0x1463 [(1, 5)])) (fun t => (t.reg 2, t.cond)) = some (8, 0x0001) := by decide

/-- A6. -/
theorem test_addImm_negative :
    after (step (start 0x3000 0x1270 [(1, 0x0010)])) (fun t => (t.reg 1, t.cond)) = some (0, 0x0002) := by
  decide

/-- S4, the source's own. -/
theorem test_andReg_source :
    after (step (start 0x3000 0x5401 [(0, 0xF0F0), (1, 0x0FF0)])) (fun t => (t.reg 2, t.cond)) =
      some (0x00F0, 0x0001) := by decide

/-- A11. -/
theorem test_andImm_negative :
    after (step (start 0x3000 0x50B0 [(2, 0xABCD)])) (fun t => (t.reg 0, t.cond)) =
      some (0xABC0, 0x0004) := by decide

/-- A15. -/
theorem test_not_ignored_bits :
    after (step (start 0x3000 0x9280 [(2, 0x00FF)])) (fun t => (t.reg 1, t.cond)) =
      some (0xFF00, 0x0004) := by decide

/-- C2 and C3. -/
theorem test_br_mask :
    after (step { start 0x3000 0x0805 with cond := 0x0004 }) State.pc = some 0x3006 ∧
    after (step { start 0x3000 0x0805 with cond := 0x0001 }) State.pc = some 0x3001 := by decide

/-- C6. -/
theorem test_br_wraps : after (step { start 0xFFF0 0x02FF with cond := 0x0001 }) State.pc = some 0x00F0 := by decide

/-- C9. -/
theorem test_jmp : after (step (start 0x3000 0xCEFF [(3, 0x4000)])) State.pc = some 0x4000 := by decide

/-- C12. -/
theorem test_jsr_wraps :
    after (step (start 0xFF00 0x4BFF)) (fun t => (t.reg 7, t.pc)) = some (0xFF01, 0x0300) := by decide

/-- C13. -/
theorem test_jsrr :
    after (step (start 0x3000 0x4100 [(4, 0x5000)])) (fun t => (t.reg 7, t.pc)) =
      some (0x3001, 0x5000) := by decide

/-- C14. -/
theorem test_jsrr_r7 :
    after (step (start 0x3000 0x41C0 [(7, 0x1234)])) (fun t => (t.reg 7, t.pc)) =
      some (0x3001, 0x3001) := by decide

/-- M5. -/
theorem test_ld_kbsr_idle :
    after (step { start 0xFDFF 0x2200 [] [(0xFE00, 0x1234)] with pollAnswers := [false], input := [0x7A] })
        (fun t => (t.cell 0xFE00, t.reg 1, t.cond, t.pc, t.input)) =
      some (0x0000, 0x0000, 0x0002, 0xFE00, [0x7A]) := by decide

/-- M6. -/
theorem test_ld_kbsr_ready :
    after (step { start 0xFDFF 0x2200 with pollAnswers := [true], input := [0x7A] })
        (fun t => (t.cell 0xFE00, t.cell 0xFE02, t.reg 1, t.cond, t.input)) =
      some (0x8000, 0x007A, 0x8000, 0x0004, []) := by decide

/-- S5, the source's own. -/
theorem test_ldi_source :
    after (step (start 0x0060 0xA603 [] [(0x0064, 0x00C8), (0x00C8, 0x002A)])) (fun t => (t.reg 3, t.cond)) =
      some (0x002A, 0x0001) := by decide

/-- M7. -/
theorem test_ldi_kbsr :
    after (step { start 0x3000 0xA201 [] [(0x3002, 0xFE00)] with pollAnswers := [true], input := [0x41] })
        (fun t => (t.cell 0xFE00, t.cell 0xFE02, t.reg 1)) = some (0x8000, 0x0041, 0x8000) := by decide

/-- M8. -/
theorem test_ldr_wraps :
    after (step (start 0x3000 0x6041 [(1, 0xFFFF)] [(0, 0x7777)])) (fun t => (t.reg 0, t.cond)) =
      some (0x7777, 0x0001) := by decide

/-- M10. -/
theorem test_lea_negative :
    after (step (start 0x0010 0xEB00)) (fun t => (t.reg 5, t.cond)) = some (0xFF11, 0x0004) := by decide

/-- M13. -/
theorem test_st_kbsr :
    after (step { start 0xFDFF 0x3400 [(2, 0x1234)] with pollAnswers := [true], input := [0x41] })
        (fun t => (t.cell 0xFE00, t.input, t.cond)) = some (0x1234, [0x41], 0x0002) := by decide

/-- M14. -/
theorem test_sti :
    after (step (start 0x3001 0xB3FE [(1, 7)] [(0x3000, 0x4000)])) (fun t => (t.cell 0x4000, t.pc)) =
      some (0x0007, 0x3002) := by decide

/-- M15. -/
theorem test_str_base_is_source :
    after (step (start 0x3000 0x7D9F [(6, 0x5000)])) (fun t => t.cell 0x501F) = some 0x5000 := by decide

/-- M20. -/
theorem test_fetch_at_kbsr :
    after (step { start 0xFE00 0x4BFF with pollAnswers := [false] }) (fun t => (t.pc, t.reg 7, t.cell 0xFE00)) =
      some (0xFE01, 0x0000, 0x0000) := by decide

/-- T1. -/
theorem test_getc :
    after (step { start 0x3000 0xF020 with input := [0x78] }) (fun t => (t.reg 0, t.reg 7, t.pc, t.output, t.input)) =
      some (0x0078, 0x3001, 0x3001, [], []) := by decide

/-- T16. -/
theorem test_getc_stuck : stopped (step (start 0x3000 0xF020)) = some .awaitingInput := by decide

/-- T2. -/
theorem test_out :
    after (step (start 0x3000 0xF021 [(0, 0x1241)])) (fun t => (t.output, t.reg 7)) =
      some ([0x41], 0x3001) := by decide

/-- T6. -/
theorem test_puts_boundary :
    after (step (start 0x3000 0xF022 [(0, 0xFFFE)] [(0xFFFE, 0x41), (0xFFFF, 0x42), (0, 0x43)]))
      State.output = some [0x41, 0x42] := by decide

/-- T7. -/
theorem test_puts_low_byte :
    after (step (start 0x3000 0xF022 [(0, 0x4000)] [(0x4000, 0x0100)])) State.output =
      some [0x00] := by decide

/-- T9: the prompt of the vector, as an argument of the service. -/
theorem test_in_prompt :
    after (serviceIn [0x3E, 0x20] false { State.reset with input := [0x71] }) (fun t => (t.output, t.reg 0)) =
      some ([0x3E, 0x20, 0x71], 0x0071) := by decide

/-- P7 with TRAP_SETS_FLAGS = true: COND from R0. -/
theorem test_in_sets_flags :
    after (serviceIn [] true { State.reset with input := [0x62] }) (fun t => t.cond) = some 0x0001 := by decide

/-- T10. -/
theorem test_putsp :
    after (step (start 0x3000 0xF024 [(0, 0x4000)] [(0x4000, 0x6548), (0x4001, 0x006C)]))
      State.output = some [0x48, 0x65, 0x6C] := by decide

/-- T11. -/
theorem test_putsp_zero_low_byte :
    after (step (start 0x3000 0xF024 [(0, 0x4000)] [(0x4000, 0x4100)])) State.output =
      some [0x00, 0x41] := by decide

/-- T12, T15 and S6. -/
theorem test_halt :
    after (step (start 0x3000 0xFF25)) (fun t => (t.reg 7, t.pc, t.run, t.output)) =
      some (0x3001, 0x3001, .halted, []) := by decide

/-- T13. -/
theorem test_trap_unknown :
    after (step (start 0x3000 0xF026 [(0, 0x1234)])) (fun t => (t.reg 0, t.reg 7, t.pc, t.errors, t.run)) =
      some (0x1234, 0x3001, 0x3001, [.unknownTrap 0x26], .running) := by decide

/-- Q1. -/
theorem test_reserved8 :
    after (step (start 0x3000 0x8000)) (fun t => (t.pc, t.errors, t.run)) =
      some (0x3001, [.unsupportedOpcode 0x8], .running) := by decide

/-- Q2. -/
theorem test_reservedD :
    after (step (start 0x3000 0xDFFF)) (fun t => (t.pc, t.errors)) = some (0x3001, [.unsupportedOpcode 0xD]) := by decide

/-- Q3. -/
theorem test_pc_wraps : after (step (start 0xFFFF 0x1021)) (fun t => (t.reg 0, t.pc)) = some (1, 0x0000) := by decide

/-- Q4. -/
theorem test_halted : stopped (step { start 0x3000 0x1021 with run := .halted }) = some .halted := by decide

/-! ### The loader (3.6) -/

/-- B1 to B4. -/
theorem test_loader :
    loadImage [] [0x30, 0x00, 0x12, 0x34, 0xAB, 0xCD] = [(0x3000, 0x1234), (0x3001, 0xABCD)] ∧
    loadImage [] [0xFF, 0xFF, 0x11, 0x11, 0x22, 0x22] = [(0xFFFF, 0x1111)] ∧
    loadImage [] [0x30, 0x00, 0x12, 0x34, 0xAB] = [(0x3000, 0x1234)] ∧ loadImage [] [0x40, 0x00] = [] := by decide

/-- R153: a later image overwrites an earlier one. R154: a failed image leaves no initial state. -/
theorem test_launch :
    (launch true (Vector.replicate 8 0) [] [some [0x30, 0x00, 0x12, 0x34], some [0x30, 0x00, 0xAB, 0xCD]]).map State.mem =
      some [(0x3000, 0xABCD)] ∧
    launch true (Vector.replicate 8 0) [] [some [0x30, 0x00, 0x12, 0x34], none] = none ∧
    launch false (Vector.replicate 8 0) [] [some [0x30, 0x00, 0x12, 0x34]] = none := by decide

/-! ### Witnesses: the hypotheses of each obligation, met together -/

/-- SignExtensionFollowsTheSource: both cases of the top bit, at the smallest and the largest width. -/
theorem witness_SignExtensionFollowsTheSource :
    (0 < 5 ∧ 5 ≤ 16) ∧ (0b10000#5).getLsbD (5 - 1) = true ∧ (0b01111#5).getLsbD (5 - 1) = false ∧
    (1#1).getLsbD (1 - 1) = true ∧ (0x7FFF#16).getLsbD (16 - 1) = false := by decide

theorem witness_DecodeOfEncodeIsTheInstruction :
    Instr.wellFormed (.trap 0x1F) = true ∧ Instr.wellFormed (.trap 0x26) = true ∧ Instr.wellFormed .halt = true := by
  decide

/-- Two words of each form that differ only in its ignored bits. -/
theorem witness_IgnoredBitsAreIgnored :
    ((0x1443#16 &&& 0xF020 = 0x1000) ∧ 0x1443#16 &&& 0xFFE7 = 0x145B &&& 0xFFE7) ∧
    ((0x5401#16 &&& 0xF020 = 0x5000) ∧ 0x5401#16 &&& 0xFFE7 = 0x5419 &&& 0xFFE7) ∧
    ((0x92BF#16 &&& 0xF000 = 0x9000) ∧ 0x92BF#16 &&& 0xFFC0 = 0x9280 &&& 0xFFC0) ∧
    ((0xC0C0#16 &&& 0xF000 = 0xC000) ∧ 0xC0C0#16 &&& 0xF1C0 = 0xCEFF &&& 0xF1C0) ∧
    ((0x41C0#16 &&& 0xF800 = 0x4000) ∧ 0x41C0#16 &&& 0xF9C0 = 0x47FF &&& 0xF9C0) ∧
    ((0xF025#16 &&& 0xF000 = 0xF000) ∧ 0xF025#16 &&& 0xF0FF = 0xFF25 &&& 0xF0FF) ∧
    ((0x8000#16 &&& 0xF000 = 0x8000) ∧ 0x8000#16 &&& 0xF000 = 0x8FFF &&& 0xF000) ∧
    ((0xD000#16 &&& 0xF000 = 0xD000) ∧ 0xD000#16 &&& 0xF000 = 0xDFFF &&& 0xF000) := by decide

/-- The three cases of the flag rule, at the values where they meet. -/
theorem witness_SetCCFollowsTheFlagRule :
    ((0x8000#16 ≠ 0) ∧ (0x8000#16).getLsbD 15 = true) ∧ ((0x7FFF#16 ≠ 0) ∧ (0x7FFF#16).getLsbD 15 = false) ∧
    ((0x0001#16 ≠ 0) ∧ (0x0001#16).getLsbD 15 = false) := by decide

/-- A word of each opcode, for the decoding clauses of the instruction statements. -/
theorem witness_decoding_clauses :
    (0x1463#16).extractLsb 15 12 = 0x1#4 ∧ (0x5401#16).extractLsb 15 12 = 0x5#4 ∧
    (0x92BF#16).extractLsb 15 12 = 0x9#4 ∧ (0x0405#16).extractLsb 15 12 = 0x0#4 ∧
    (0xC1C0#16).extractLsb 15 12 = 0xC#4 ∧
    ((0x4810#16).extractLsb 15 12 = 0x4#4 ∧ (0x4810#16).getLsbD 11 = true) ∧
    ((0x4100#16).extractLsb 15 12 = 0x4#4 ∧ (0x4100#16).getLsbD 11 = false) ∧
    (0x2204#16).extractLsb 15 12 = 0x2#4 ∧ (0xA603#16).extractLsb 15 12 = 0xA#4 ∧
    (0x68A0#16).extractLsb 15 12 = 0x6#4 ∧ (0xE002#16).extractLsb 15 12 = 0xE#4 ∧
    (0x3403#16).extractLsb 15 12 = 0x3#4 ∧ (0xB3FE#16).extractLsb 15 12 = 0xB#4 ∧
    (0x7041#16).extractLsb 15 12 = 0x7#4 ∧ (0x8FFF#16).extractLsb 15 12 = 0x8#4 ∧
    (0xD123#16).extractLsb 15 12 = 0xD#4 := by decide

/-- A word of each vector, for the decoding clauses of the trap statements. -/
theorem witness_trap_decoding_clauses :
    (0xFF25#16).extractLsb 15 12 = 0xF#4 ∧ (0xF020#16).extractLsb 7 0 = 0x20#8 ∧ (0xF021#16).extractLsb 7 0 = 0x21#8 ∧
    (0xF022#16).extractLsb 7 0 = 0x22#8 ∧ (0xF023#16).extractLsb 7 0 = 0x23#8 ∧ (0xF024#16).extractLsb 7 0 = 0x24#8 ∧
    (0xFF25#16).extractLsb 7 0 = 0x25#8 ∧ ((0xF01F#16).extractLsb 7 0).toNat < 0x20 ∧
    0x25 < ((0xF026#16).extractLsb 7 0).toNat := by decide

/-- BrTestsTheMaskAgainstCond: each legal code. -/
theorem witness_BrTestsTheMaskAgainstCond :
    State.reset.condLegal ∧ { State.reset with cond := condNegative }.condLegal ∧
    { State.reset with cond := condPositive }.condLegal := by decide

/-- MemReadPollsAtKbsrAlone and MemWriteStoresAndDoesNothingElse: canonical memory, with and without cells. -/
theorem witness_MemRead_MemWrite :
    Memory.wf State.reset.mem = true ∧ Memory.wf (start 0x3000 0x1463).mem = true ∧ (0xFDFF#16 ≠ kbsrAddr) ∧
    (0xFE01#16 ≠ kbsrAddr) := by decide

/-- The states of M5 and M6: PC-relative accesses whose address is KBSR_ADDR, with input and without. -/
def atKbsr (input : List Byte) : State :=
  { start 0xFDFF 0x2200 with pc := 0xFE00, pollAnswers := [true], input := input }

/-- LdLoadsPcRelative, LdiLoadsThroughThePointer, StiStoresThroughThePointer: the clause at KBSR_ADDR, both draws. -/
theorem witness_pc_relative_at_kbsr :
    (atKbsr [0x7A]).pc + sext 0#9 = kbsrAddr ∧ Memory.wf (atKbsr [0x7A]).mem = true ∧
    (atKbsr [0x7A]).available = true ∧ (atKbsr []).available = false := by decide

/-- The same three and LdrLoadsBasePlusOffset: the clause away from KBSR_ADDR, one cell below and above it. -/
theorem witness_away_from_kbsr :
    (atKbsr []).pc + sext 0x1FF#9 ≠ kbsrAddr ∧ (atKbsr []).pc + sext 0x001#9 ≠ kbsrAddr ∧
    (atKbsr []).reg 0 + sext 0#6 ≠ kbsrAddr := by decide

/-- LdrLoadsBasePlusOffset at KBSR_ADDR. -/
theorem witness_LdrLoadsBasePlusOffset :
    (start 0x3000 0x6040 [(1, 0xFE00)]).reg 1 + sext 0#6 = kbsrAddr ∧
    Memory.wf (start 0x3000 0x6040 [(1, 0xFE00)]).mem = true := by decide

/-- StStoresPcRelative and StrStoresBasePlusOffset. -/
theorem witness_stores : Memory.wf (start 0x3000 0x3403 [(2, 0x1234)]).mem = true := by decide

/-- GetcReadsOneCharacter and InPromptsReadsAndEchoes. -/
theorem witness_input_services : { State.reset with input := [0x78, 0x79] }.input = 0x78 :: [0x79] := by decide

/-- TrapDispatchesByVector: a trap that goes on, and a word of op 0xF. -/
theorem witness_TrapDispatchesByVector :
    (after (exec (.trap 0x21) State.reset) State.pc).isSome = true ∧ (0xF021#16).extractLsb 15 12 = 0xF#4 := by decide

/-- UnknownTrapOnlyReports: the vectors next to the six. -/
theorem witness_UnknownTrapOnlyReports : (0x1F#8).toNat < 0x20 ∧ 0x25 < (0x26#8).toNat := by decide

/-- BlockingInputWaitsForAByte. -/
theorem witness_BlockingInputWaitsForAByte :
    State.reset.input = [] ∧ Memory.wf (start 0x3000 0xF020).mem = true ∧
    stopped (step (start 0x3000 0xF020)) = some .awaitingInput ∧ ([0x78] : List Byte) ≠ [] ∧
    stopped (exec .inChar State.reset) = some .awaitingInput := by decide

/-- StepRunsTheDecodedInstruction. -/
theorem witness_StepRunsTheDecodedInstruction :
    (start 0x3000 0x1463).run = .running ∧ (start 0x3000 0x1463).pc ≠ kbsrAddr ∧
    { State.reset with run := .halted }.run = .halted := by decide

/-- FetchAtKbsrPollsFirst, both draws. -/
theorem witness_FetchAtKbsrPollsFirst :
    (atKbsr [0x7A]).run = .running ∧ (atKbsr [0x7A]).pc = kbsrAddr ∧ Memory.wf (atKbsr [0x7A]).mem = true ∧
    (atKbsr [0x7A]).available = true ∧ (atKbsr []).available = false := by decide

/-- OnlyHaltEndsARun: a HALTED state, a step that ends in HALTED and a step that does not. -/
theorem witness_OnlyHaltEndsARun :
    { State.reset with run := .halted }.run = .halted ∧
    after (step (start 0x3000 0xF025)) State.run = some .halted ∧
    after (step (start 0x3000 0x1463)) State.run = some .running := by decide

/-- StepStopsOnlyHaltedOrWaiting: a state of each kind. -/
theorem witness_StepStopsOnlyHaltedOrWaiting :
    Memory.wf (start 0x3000 0xF020).mem = true ∧ (start 0x3000 0xF020).waiting ∧ ¬ (start 0x3000 0x1463).waiting := by
  decide

/-- PlacedWordIsRunNext: the largest word, and a state with PC at KBSR_ADDR. -/
theorem witness_PlacedWordIsRunNext : 0xFFFF < 65536 ∧ Memory.wf (atKbsr []).mem = true := by decide

/-- StepKeepsTheInvariant. -/
theorem witness_StepKeepsTheInvariant :
    (start 0x3000 0x1463).Inv ∧ (after (step (start 0x3000 0x1463)) State.pc).isSome = true := by decide

/-- EveryLaunchMeetsTheInvariant. -/
theorem witness_EveryLaunchMeetsTheInvariant :
    (launch true (Vector.replicate 8 0) [] [some [0x30, 0x00, 0x12, 0x34]]).isSome = true := by decide

/-- CondWrittenByResultsAlone, RegistersWrittenAsTabled: an instruction of each kind that goes on. -/
theorem witness_CondWrittenByResultsAlone :
    (after (exec (.addReg 2 1 3) State.reset) State.pc).isSome = true ∧
    Instr.condSource (.addReg 2 1 3) = some 2 ∧
    (after (exec (.st 2 3) State.reset) State.pc).isSome = true ∧ Instr.condSource (.st 2 3) = none := by decide

/-- PcChangedByControlAlone. -/
theorem witness_PcChangedByControlAlone :
    (after (exec .halt State.reset) State.pc).isSome = true ∧ Instr.transfers .halt = false := by decide

/-- CellsWrittenByStoresAndPollsAlone: a store with a cell next to its own, and a load with a cell beside KBSR. -/
theorem witness_CellsWrittenByStoresAndPollsAlone :
    (after (exec (.st 2 3) State.reset) State.pc).isSome = true ∧
    Instr.storeAddr State.reset (.st 2 3) ≠ some 0x3004 ∧ Instr.readsMemory (.st 2 3) = false ∧
    (after (exec (.ld 2 3) State.reset) State.pc).isSome = true ∧
    Instr.storeAddr State.reset (.ld 2 3) ≠ some 0xFE01 ∧ (0xFE01#16 ≠ kbsrAddr ∧ 0xFE01#16 ≠ kbdrAddr) := by decide

/-- StreamsMoveForwardOnly. -/
theorem witness_StreamsMoveForwardOnly :
    Memory.wf (start 0x3000 0xF021).mem = true ∧ (after (step (start 0x3000 0xF021)) State.output).isSome = true := by
  decide

/-- LaterInputDoesNotChangeAStep. -/
theorem witness_LaterInputDoesNotChangeAStep :
    Memory.wf (atKbsr [0x7A]).mem = true ∧ (atKbsr [0x7A]).input ≠ [] := by decide

/-- PollAnswersMatterToReadsAlone. -/
theorem witness_PollAnswersMatterToReadsAlone :
    Instr.readsMemory .out = false ∧ (after (exec .out State.reset) State.polls).isSome = true := by decide

/-- StoresAreSeenByFetch: P6's store into the next instruction. -/
theorem witness_StoresAreSeenByFetch :
    Memory.wf State.reset.mem = true ∧ Instr.storeAddr State.reset (.st 1 0) = some 0x3000 ∧
    (0x3000#16 ≠ kbsrAddr) ∧ (after (exec (.st 1 0) State.reset) State.mem).isSome = true ∧
    after (exec (.st 1 0) State.reset) (fun t => (t.pc, t.run)) = some (0x3000, .running) := by decide

/-- The state of M18: two bytes waiting, and both coming polls find input. -/
def twoBytes : State := { State.reset with input := [0x61, 0x62], pollAnswers := [true, true] }

/-- SecondPollOverwritesKbdr: M18's input and draws. -/
theorem witness_SecondPollOverwritesKbdr :
    Memory.wf twoBytes.mem = true ∧ twoBytes.input = 0x61 :: 0x62 :: [] ∧ twoBytes.available = true ∧
    (twoBytes.memRead kbsrAddr).2.available = true := by decide

/-- LoaderPlacesTheImage: with and without an odd byte, at the last cell. -/
theorem witness_LoaderPlacesTheImage :
    Memory.wf [] = true ∧ ([] : List Byte).length ≤ 1 ∧ ([0xAB] : List Byte).length ≤ 1 ∧ 65535 < 65536 := by decide

/-- LaunchLoadsInOrderOrNotAtAll. -/
theorem witness_LaunchLoadsInOrderOrNotAtAll :
    none ∈ [some [0x30, 0x00], (none : Option (List Byte))] ∧
    [some [0x30, 0x00], some [0x40, 0x00]] = ([[0x30, 0x00], [0x40, 0x00]] : List (List Byte)).map some := by decide

end Sys2Proof.Tests
end

/-! PROOFS. The family 10_state: the invariant, the host streams, the frame rules over every instruction, the launch and
the state at creation. Each rule over every instruction is a short case analysis of `Effect`, which says once what an
instruction can do. -/

namespace Sys2Proof.Machine

/-! ### The state an instruction leaves after its reads (R46, R99) -/

/-- The state after the MemReads of an instruction and before it writes anything: the operand of LD and LDR, the pointer
and the operand of LDI, the pointer of STI. -/
def State.afterReads (s : State) : Instr → State
  | .ld _ off9 => s.beforeRead (s.pcRel off9)
  | .ldr _ base off6 => s.beforeRead (s.baseRel base off6)
  | .ldi _ off9 => (s.pointerAt off9).2.beforeRead (s.pointerAt off9).1
  | .sti _ off9 => (s.pointerAt off9).2
  | _ => s

/-- What holds of a state and is kept by every read, holds after the reads of any instruction. -/
theorem State.afterReads_induct {P : State → Prop} {s : State} (i : Instr) (hs : P s)
    (hread : ∀ u a, P u → P (u.beforeRead a)) : P (s.afterReads i) := by
  cases i with
  | ld dr off9 => exact hread _ _ hs
  | ldr dr base off6 => exact hread _ _ hs
  | ldi dr off9 => exact hread _ _ (hread _ _ hs)
  | sti sr off9 => exact hread _ _ hs
  | _ => exact hs

@[simp] theorem State.afterReads_regs (s : State) (i : Instr) : (s.afterReads i).regs = s.regs :=
  State.afterReads_induct (P := fun u => u.regs = s.regs) i rfl fun u a h => (u.beforeRead_regs a).trans h
@[simp] theorem State.afterReads_pc (s : State) (i : Instr) : (s.afterReads i).pc = s.pc :=
  State.afterReads_induct (P := fun u => u.pc = s.pc) i rfl fun u a h => (u.beforeRead_pc a).trans h
@[simp] theorem State.afterReads_cond (s : State) (i : Instr) : (s.afterReads i).cond = s.cond :=
  State.afterReads_induct (P := fun u => u.cond = s.cond) i rfl fun u a h => (u.beforeRead_cond a).trans h
@[simp] theorem State.afterReads_output (s : State) (i : Instr) : (s.afterReads i).output = s.output :=
  State.afterReads_induct (P := fun u => u.output = s.output) i rfl fun u a h => (u.beforeRead_output a).trans h
@[simp] theorem State.afterReads_errors (s : State) (i : Instr) : (s.afterReads i).errors = s.errors :=
  State.afterReads_induct (P := fun u => u.errors = s.errors) i rfl fun u a h => (u.beforeRead_errors a).trans h
@[simp] theorem State.reg_afterReads (s : State) (i : Instr) (r : RegIx) : (s.afterReads i).reg r = s.reg r := by
  simp [State.reg]

theorem State.wf_afterReads {s : State} (i : Instr) (h : Memory.wf s.mem = true) :
    Memory.wf (s.afterReads i).mem = true :=
  State.afterReads_induct (P := fun u => Memory.wf u.mem = true) i h fun _ a => State.wf_beforeRead a

theorem State.afterReads_of_readsMemory_eq_false (s : State) {i : Instr} (h : Instr.readsMemory i = false) :
    s.afterReads i = s := by
  cases i with
  | ld dr off9 => cases h
  | ldi dr off9 => cases h
  | ldr dr base off6 => cases h
  | sti sr off9 => cases h
  | _ => rfl

/-- The reads of one instruction take at most one byte: a pointer that a poll left is not KBSR_ADDR, so LDI polls once. -/
theorem State.input_afterReads {s : State} (i : Instr) (h : Memory.wf s.mem = true) :
    (s.afterReads i).input = s.input ∨ ∃ b, s.input = b :: (s.afterReads i).input := by
  cases i with
  | ld dr off9 => exact s.input_beforeRead _
  | ldr dr base off6 => exact s.input_beforeRead _
  | sti sr off9 => exact s.input_beforeRead _
  | ldi dr off9 =>
    by_cases hk : s.pcRel off9 = kbsrAddr
    · have hread : s.afterReads (.ldi dr off9) = s.poll := by
        simp only [State.afterReads, State.pointerAt, State.memRead, hk, State.beforeRead_kbsr,
          State.cell_poll_kbsrValue h, State.beforeRead_of_ne _ s.kbsrValue_ne.1]
      exact hread ▸ s.input_poll
    · simp only [State.afterReads, State.pointerAt, State.memRead, State.beforeRead_of_ne _ hk]
      exact s.input_beforeRead _
  | _ => exact .inl rfl

/-! ### Trap return, the services that take input, and the flags -/

@[simp] theorem trapReturn_pc (s : State) : (trapReturn s).pc = s.reg linkReg := rfl
@[simp] theorem trapReturn_regs (s : State) : (trapReturn s).regs = s.regs := rfl
@[simp] theorem reg_trapReturn (s : State) (r : RegIx) : (trapReturn s).reg r = s.reg r := rfl
@[simp] theorem trapReturn_cond (s : State) : (trapReturn s).cond = s.cond := rfl
@[simp] theorem trapReturn_run (s : State) : (trapReturn s).run = s.run := rfl
@[simp] theorem trapReturn_mem (s : State) : (trapReturn s).mem = s.mem := rfl
@[simp] theorem trapReturn_input (s : State) : (trapReturn s).input = s.input := rfl
@[simp] theorem trapReturn_output (s : State) : (trapReturn s).output = s.output := rfl
@[simp] theorem trapReturn_errors (s : State) : (trapReturn s).errors = s.errors := rfl
@[simp] theorem trapReturn_pollAnswers (s : State) : (trapReturn s).pollAnswers = s.pollAnswers := rfl
@[simp] theorem trapReturn_polls (s : State) : (trapReturn s).polls = s.polls := rfl

theorem serviceGetc_of_nil (setsFlags : Bool) {s : State} (h : s.input = []) :
    serviceGetc setsFlags s = .fault .awaitingInput := by
  simp [serviceGetc, State.inGet, h]

theorem serviceGetc_of_cons (setsFlags : Bool) {s : State} {b : Byte} {rest : List Byte} (h : s.input = b :: rest) :
    serviceGetc setsFlags s = .next ((s.setInput rest).giveChar setsFlags b) := by
  simp [serviceGetc, State.inGet, h]

theorem serviceIn_of_nil (prompt : List Byte) (setsFlags : Bool) {s : State} (h : s.input = []) :
    serviceIn prompt setsFlags s = .fault .awaitingInput := by
  simp [serviceIn, State.inGet, h]

theorem serviceIn_of_cons (prompt : List Byte) (setsFlags : Bool) {s : State} {b : Byte} {rest : List Byte}
    (h : s.input = b :: rest) :
    serviceIn prompt setsFlags s =
      .next ((((s.out prompt).setInput rest).out [b]).giveChar setsFlags b) := by
  simp [serviceIn, State.inGet, h]

@[simp] theorem condOf_zero : condOf 0x0000 = condZero := rfl

theorem condOf_of_bit15_set {v : Word} (h : v ≠ 0x0000) (hsign : v.getLsbD 15 = true) : condOf v = condNegative := by
  rw [condOf, if_neg h, if_pos hsign]

theorem condOf_of_bit15_clear {v : Word} (h : v ≠ 0x0000) (hsign : v.getLsbD 15 = false) : condOf v = condPositive := by
  rw [condOf, if_neg h, if_neg (by simp only [hsign, Bool.false_eq_true, not_false_eq_true])]

/-! ### Everything an instruction can do -/

/-- The ways an instruction `i` that goes on turns `s` into its next state. -/
inductive Effect (i : Instr) (s : State) : State → Prop
  /-- A result and its flags (R28). -/
  | result (dr : RegIx) (v : Word) (hcond : Instr.condSource i = some dr) (hdest : Instr.destRegs i = [dr]) :
      Effect i s ((s.afterReads i).writeResult dr v)
  /-- A transfer without a link: BR, taken or not, and JMP (R90, R91). -/
  | jump (v : Word) (hcond : Instr.condSource i = none) (htransfers : Instr.transfers i = true) : Effect i s (s.setPc v)
  /-- A transfer with a link (R92, R93). -/
  | link (v : Word) (hcond : Instr.condSource i = none) (htransfers : Instr.transfers i = true)
      (hdest : Instr.destRegs i = [linkReg]) : Effect i s ((s.writeReg linkReg s.pc).setPc v)
  /-- A store (R104 to R106). -/
  | store (a v : Word) (hcond : Instr.condSource i = none) (haddr : Instr.storeAddr s i = some a) :
      Effect i s ((s.afterReads i).memWrite a v)
  /-- A trap, through the dispatch of its vector (R110). -/
  | trap (vect : Byte) (u : State) (hcond : Instr.condSource i = none)
      (hdest : Instr.destRegs i = Instr.destRegs (.trap vect)) (hroutine : trapRoutine vect (trapEnter vect s) = .next u) :
      Effect i s (trapReturn u)
  /-- A reserved opcode's diagnostic (R123, R124). -/
  | report (d : Diagnostic) (hcond : Instr.condSource i = none) : Effect i s (s.raiseDiag d)

theorem execBr_eq (n z p : Bool) (off9 : BitVec 9) (s : State) :
    execBr n z p off9 s = .next (s.setPc (if condMask n z p &&& s.cond ≠ 0 then s.pcRel off9 else s.pc)) := by
  unfold execBr
  split <;> rfl

/-- A trap whose dispatch is that of TRAP with the vector `vect` has the effect of that trap. -/
theorem effect_of_execTrap {i : Instr} {s t : State} (vect : Byte) (hcond : Instr.condSource i = none)
    (hdest : Instr.destRegs i = Instr.destRegs (.trap vect)) (h : execTrap vect s = .next t) : Effect i s t := by
  obtain ⟨u, hu, rfl⟩ := trapSequence_eq_next.mp h
  exact .trap vect u hcond hdest hu

theorem effect_of_exec {i : Instr} {s t : State} (h : exec i s = .next t) : Effect i s t := by
  cases i with
  | addReg dr sr1 sr2 => cases h; exact .result dr _ rfl rfl
  | addImm dr sr1 imm5 => cases h; exact .result dr _ rfl rfl
  | andReg dr sr1 sr2 => cases h; exact .result dr _ rfl rfl
  | andImm dr sr1 imm5 => cases h; exact .result dr _ rfl rfl
  | not dr sr => cases h; exact .result dr _ rfl rfl
  | ld dr off9 => cases h; exact .result dr _ rfl rfl
  | ldi dr off9 => cases h; exact .result dr _ rfl rfl
  | ldr dr base off6 => cases h; exact .result dr _ rfl rfl
  | lea dr off9 => cases h; exact .result dr _ rfl rfl
  | br n z p off9 => cases (execBr_eq n z p off9 s).symm.trans h; exact .jump _ rfl rfl
  | jmp base => cases h; exact .jump _ rfl rfl
  | jsr off11 => cases h; exact .link _ rfl rfl rfl
  | jsrr base => cases h; exact .link _ rfl rfl rfl
  | st sr off9 => cases h; exact .store _ _ rfl rfl
  | sti sr off9 => cases h; exact .store _ _ rfl rfl
  | str sr base off6 => cases h; exact .store _ _ rfl rfl
  | trap vect => exact effect_of_execTrap vect rfl rfl h
  | getc => exact effect_of_execTrap vecGetc rfl rfl h
  | out => exact effect_of_execTrap vecOut rfl rfl h
  | puts => exact effect_of_execTrap vecPuts rfl rfl h
  | inChar => exact effect_of_execTrap vecIn rfl rfl h
  | putsp => exact effect_of_execTrap vecPutsp rfl rfl h
  | halt => exact effect_of_execTrap vecHalt rfl rfl h
  | reserved8 => cases h; exact .report _ rfl
  | reservedD => cases h; exact .report _ rfl
/-! ### The step (R121, R125) -/

/-- A step that goes on is that of a running core, and runs the decoded instruction after the fetch. -/
theorem step_eq_next {s t : State} :
    step s = .next t ↔ s.run = .running ∧ exec (decode s.fetch.1) s.fetch.2 = .next t := by
  cases h : s.run <;> simp [step, h]

/-- The word a fetch at KBSR_ADDR reads is a reserved opcode or a branch never taken (R43, R90, R123). -/
theorem exec_decode_kbsrValue (s u : State) : exec (decode s.kbsrValue) u =
    .next (if s.available then u.raiseDiag (.unsupportedOpcode 0x8) else u) := by
  cases h : s.available with
  | true =>
    have hword : decode s.kbsrValue = .reserved8 := by simp only [State.kbsrValue, h]; rfl
    rw [hword]; rfl
  | false =>
    have hword : decode s.kbsrValue = .br false false false 0 := by simp only [State.kbsrValue, h]; rfl
    have hnever : ¬ (condMask false false false &&& u.cond ≠ 0) := by simp [condMask]
    calc exec (decode s.kbsrValue) u = execBr false false false 0 u := by rw [hword]; rfl
      _ = .next u := by rw [execBr, if_neg hnever]

/-! ### The invariant (R25, R47) -/

theorem State.inv_fetch {s : State} (h : s.Inv) : s.fetch.2.Inv := by
  obtain ⟨hcond, hmem⟩ := h
  exact ⟨by simpa [State.condLegal, State.fetch] using hcond, State.wf_beforeRead s.pc hmem⟩

theorem State.inv_of_exec {i : Instr} {s t : State} (h : s.Inv) (he : exec i s = .next t) : t.Inv := by
  obtain ⟨hcond, hmem⟩ := h
  have hcond' : (s.afterReads i).condLegal := by simpa [State.condLegal] using hcond
  have hmem' := State.wf_afterReads i hmem
  cases effect_of_exec he with
  | result dr v => exact ⟨State.condLegal_writeResult _ dr v, hmem'⟩
  | jump => exact ⟨hcond, hmem⟩
  | link => exact ⟨hcond, hmem⟩
  | store a v => exact ⟨hcond', State.wf_memWrite a v hmem'⟩
  | trap vect u _ _ hu =>
    obtain ⟨-, huc, hum, -⟩ := trapRoutine_next hu
    exact ⟨by simpa [State.condLegal, huc] using hcond, by simpa [hum] using hmem⟩
  | report => exact ⟨hcond, hmem⟩

/-- Settles O38: the fetch keeps the invariant, and so does every instruction. -/
theorem stepKeepsTheInvariant : Obligations.StepKeepsTheInvariant := by
  intro s t hs hstep
  obtain ⟨-, he⟩ := step_eq_next.mp hstep
  exact State.inv_of_exec (State.inv_fetch hs) he

/-! ### The host streams (R32, R134) -/

/-- From `s` to `t` the host streams moved forward: output and diagnostics grew at the end, the latter by at most one,
and at most the first byte of input was taken. -/
def StreamsForward (s t : State) : Prop :=
  (∃ more, t.output = s.output ++ more) ∧ (t.errors = s.errors ∨ ∃ d, t.errors = s.errors ++ [d]) ∧
  (t.input = s.input ∨ ∃ b, s.input = b :: t.input)

theorem streamsForward_refl (s : State) : StreamsForward s s := ⟨⟨[], by simp⟩, .inl rfl, .inl rfl⟩

theorem streamsForward_beforeRead (s : State) (a : Word) : StreamsForward s (s.beforeRead a) :=
  ⟨⟨[], by simp⟩, .inl (by simp), s.input_beforeRead a⟩

theorem streamsForward_afterReads {s : State} (i : Instr) (h : Memory.wf s.mem = true) :
    StreamsForward s (s.afterReads i) :=
  ⟨⟨[], by simp⟩, .inl (by simp), State.input_afterReads i h⟩

theorem streamsForward_of_exec {i : Instr} {s t : State} (hmem : Memory.wf s.mem = true) (he : exec i s = .next t) :
    StreamsForward s t := by
  cases effect_of_exec he with
  | result => exact streamsForward_afterReads i hmem
  | jump => exact streamsForward_refl s
  | link => exact streamsForward_refl s
  | store => exact streamsForward_afterReads i hmem
  | trap vect u _ _ hu =>
    obtain ⟨-, -, -, -, -, hinput, houtput, herrors, -⟩ := trapRoutine_next hu
    exact ⟨houtput, herrors, hinput.imp_right And.right⟩
  | report d => exact ⟨⟨[], by simp⟩, .inr ⟨d, rfl⟩, .inl rfl⟩

/-- Settles O45: away from KBSR_ADDR only the instruction moves the streams; at it the fetch's poll may take a byte, and
the word it then fetches is an instruction that takes none. -/
theorem streamsMoveForwardOnly : Obligations.StreamsMoveForwardOnly := by
  intro s t hmem hstep
  obtain ⟨-, he⟩ := step_eq_next.mp hstep
  by_cases hk : s.pc = kbsrAddr
  · rw [State.fetch_word_kbsr hk hmem, exec_decode_kbsrValue] at he
    obtain rfl := Host.Outcome.next.inj he
    have hpoll : StreamsForward s s.fetch.2 := streamsForward_beforeRead s s.pc
    split
    · obtain ⟨houtput, -, hinput⟩ := hpoll
      exact ⟨houtput, .inr ⟨.unsupportedOpcode 0x8, by simp [State.fetch]⟩, hinput⟩
    · exact hpoll
  · rw [State.fetch_of_ne s hk] at he
    exact streamsForward_of_exec (s := s.setPc (s.pc + 1)) hmem he

/-! ### What each instruction writes (R22, R24, R27, R28) -/

/-- Settles O41: a result leaves COND at the code of the value its destination then holds; nothing else an instruction
can do writes COND. -/
theorem condWrittenByResultsAlone : Obligations.CondWrittenByResultsAlone := by
  intro i s t he
  cases effect_of_exec he with
  | result dr v hcond => simp [hcond]
  | jump v hcond => simp [hcond]
  | link v hcond => simp [hcond]
  | store a v hcond => simp [hcond]
  | trap vect u hcond _ hu =>
    obtain ⟨-, huc, -⟩ := trapRoutine_next hu
    simp [hcond, huc]
  | report d hcond => simp [hcond]

/-- A trap writes R7 on entry, and its routine writes R0 only where it takes a byte (R22, R110). -/
theorem sameRegsBut_of_trapRoutine {vect : Byte} {s u : State} (hu : trapRoutine vect (trapEnter vect s) = .next u) :
    SameRegsBut (Instr.destRegs (.trap vect)) s u := by
  intro r hr
  obtain ⟨hregs, -⟩ := trapRoutine_next hu
  by_cases htakes : vect = vecGetc ∨ vect = vecIn
  · simp only [Instr.destRegs, if_pos htakes, List.mem_cons, List.not_mem_nil, or_false, not_or] at hr
    obtain ⟨hr0, hr7⟩ := hr
    simp [hregs r (.inl hr0), hr7]
  · simp only [Instr.destRegs, if_neg htakes, List.mem_singleton] at hr
    simp [hregs r (.inr (not_or.mp htakes)), hr]

/-- Settles O42: a result writes its destination, a link R7, a trap the registers of its row, and nothing else an
instruction can do writes a general register. -/
theorem registersWrittenAsTabled : Obligations.RegistersWrittenAsTabled := by
  intro i s t he r hr
  cases effect_of_exec he with
  | result dr v _ hdest =>
    rw [hdest, List.mem_singleton] at hr
    simp [State.writeResult_reg_other _ _ hr]
  | jump => rfl
  | link v _ _ hdest =>
    rw [hdest, List.mem_singleton] at hr
    simp [State.reg_writeReg_other _ _ hr]
  | store => simp
  | trap vect u _ hdest hu => exact sameRegsBut_of_trapRoutine hu r (hdest ▸ hr)
  | report => rfl

/-- Settles O43: a trap comes back to the PC it saved in R7, which no routine writes. -/
theorem pcChangedByControlAlone : Obligations.PcChangedByControlAlone := by
  intro i s t he htransfers
  cases effect_of_exec he with
  | result => simp
  | jump v _ h => cases htransfers.symm.trans h
  | link v _ h => cases htransfers.symm.trans h
  | store => simp
  | trap vect u _ _ hu =>
    obtain ⟨hregs, -⟩ := trapRoutine_next hu
    have hlink : u.reg linkReg = (trapEnter vect s).reg linkReg := hregs linkReg (.inl (by decide))
    simpa [linkReg] using hlink
  | report => rfl

/-! ### Poll answers (R33, R46) -/

theorem trapRoutine_answerPolls (vect : Byte) (s : State) (answers : List Bool) :
    trapRoutine vect (s.answerPolls answers) = onNext (trapRoutine vect s) (State.answerPolls · answers) := by
  have hinput : (s.answerPolls answers).input = s.input := rfl
  unfold trapRoutine
  split
  · cases hi : s.input with
    | nil => rw [serviceGetc_of_nil _ hi, serviceGetc_of_nil _ (hinput.trans hi)]; rfl
    | cons b rest => rw [serviceGetc_of_cons _ hi, serviceGetc_of_cons _ (hinput.trans hi)]; rfl
  split
  · rfl
  split
  · rfl
  split
  · cases hi : s.input with
    | nil => rw [serviceIn_of_nil _ _ hi, serviceIn_of_nil _ _ (hinput.trans hi)]; rfl
    | cons b rest => rw [serviceIn_of_cons _ _ hi, serviceIn_of_cons _ _ (hinput.trans hi)]; rfl
  split
  · rfl
  split
  · rfl
  · rfl

theorem execTrap_answerPolls (vect : Byte) (s : State) (answers : List Bool) :
    execTrap vect (s.answerPolls answers) = onNext (execTrap vect s) (State.answerPolls · answers) := by
  calc execTrap vect (s.answerPolls answers)
      = onNext (trapRoutine vect ((trapEnter vect s).answerPolls answers)) trapReturn := rfl
    _ = onNext (onNext (trapRoutine vect (trapEnter vect s)) (State.answerPolls · answers)) trapReturn := by
      rw [trapRoutine_answerPolls]
    _ = onNext (execTrap vect s) (State.answerPolls · answers) := by
      unfold execTrap trapSequence
      cases trapRoutine vect (trapEnter vect s) <;> rfl

theorem exec_answerPolls {i : Instr} (s : State) (answers : List Bool) (h : Instr.readsMemory i = false) :
    exec i (s.answerPolls answers) = onNext (exec i s) (State.answerPolls · answers) := by
  cases i with
  | ld dr off9 => cases h
  | ldi dr off9 => cases h
  | ldr dr base off6 => cases h
  | sti sr off9 => cases h
  | br n z p off9 =>
    calc exec (.br n z p off9) (s.answerPolls answers)
        = .next ((s.answerPolls answers).setPc _) := execBr_eq n z p off9 _
      _ = onNext (exec (.br n z p off9) s) (State.answerPolls · answers) :=
        (congrArg (onNext · (State.answerPolls · answers)) (execBr_eq n z p off9 s)).symm
  | trap vect => exact execTrap_answerPolls vect s answers
  | getc => exact execTrap_answerPolls vecGetc s answers
  | out => exact execTrap_answerPolls vecOut s answers
  | puts => exact execTrap_answerPolls vecPuts s answers
  | inChar => exact execTrap_answerPolls vecIn s answers
  | putsp => exact execTrap_answerPolls vecPutsp s answers
  | halt => exact execTrap_answerPolls vecHalt s answers
  | _ => rfl

/-- Settles O47: no operation but a read looks at the answers or counts a poll. -/
theorem pollAnswersMatterToReadsAlone : Obligations.PollAnswersMatterToReadsAlone := by
  refine fun i s answers h => ⟨exec_answerPolls s answers h, fun t he => ?_⟩
  have hreads := s.afterReads_of_readsMemory_eq_false h
  cases effect_of_exec he with
  | result => simp [hreads]
  | jump => exact ⟨rfl, rfl⟩
  | link => exact ⟨rfl, rfl⟩
  | store => simp [hreads]
  | trap vect u _ _ hu =>
    obtain ⟨-, -, -, hanswers, hpolls, -⟩ := trapRoutine_next hu
    exact ⟨hpolls, hanswers⟩
  | report => exact ⟨rfl, rfl⟩

/-! ### The launch and the state at creation (R34 to R39, R150 to R154) -/

theorem State.condLegal_initial (g : Vector Word 8) : (State.initial g).condLegal := .inr (.inl rfl)

/-- Settles O39: a launch changes only the memory and the input of the state at creation, and the loader keeps memory
canonical. -/
theorem everyLaunchMeetsTheInvariant : Obligations.EveryLaunchMeetsTheInvariant := by
  refine ⟨⟨State.condLegal_initial _, rfl⟩, fun allocated g input images s hlaunch => ?_⟩
  obtain ⟨-, loaded, -, rfl⟩ := launch_eq_some.mp hlaunch
  exact ⟨State.condLegal_initial g, Memory.wf_loadImages loaded rfl⟩

theorem mapM_id_map_some {α : Type} (l : List α) : (l.map some).mapM id = some l := by
  simpa using List.mapM_pure (m := Option) (l := l) (f := id)

theorem mapM_id_eq_none_of_mem {α : Type} {l : List (Option α)} (h : none ∈ l) : l.mapM id = none := by
  induction l with
  | nil => cases h
  | cons a l ih =>
    cases a with
    | none => simp
    | some a => simp [ih (by simpa using h)]

/-- Settles O51: collecting the images fails exactly where one was not read, and the state of a launch that does not
fail is written out by `launch`. -/
theorem launchLoadsInOrderOrNotAtAll : Obligations.LaunchLoadsInOrderOrNotAtAll := by
  refine fun g input images => ⟨rfl, fun allocated hnone => ?_, ?_⟩
  · cases allocated <;> simp [launch, mapM_id_eq_none_of_mem hnone]
  · rintro loaded rfl
    exact ⟨_, launch_eq_some.mpr ⟨rfl, loaded, mapM_id_map_some loaded, rfl⟩, rfl, rfl, rfl, fun _ => rfl, rfl, rfl,
      rfl, rfl⟩

/-- Settles O40: every field at creation is written out by `State.initial`, and no cell is listed. -/
theorem resetValuesAreTheSpecs : Obligations.ResetValuesAreTheSpecs :=
  ⟨fun _ => ⟨rfl, rfl, fun _ => rfl, rfl, fun _ => rfl⟩, _, rfl⟩

/-! ### SetCC (R26) -/

/-- Settles O6: the three codes of `condOf`, and that `setCC` writes no field but COND. -/
theorem setCCFollowsTheFlagRule : Obligations.SetCCFollowsTheFlagRule :=
  fun _ _ => ⟨fun h => h ▸ condOf_zero, condOf_of_bit15_set, condOf_of_bit15_clear, rfl, rfl, fun _ _ => rfl,
    fun _ _ => rfl, ⟨rfl, rfl, rfl⟩, rfl, rfl⟩

end Sys2Proof.Machine

/-! PROOFS. The family 20_memory: MemRead and MemWrite, and what instructions and the fetch see of the cells. -/

namespace Sys2Proof.Machine

/-! ### MemRead and MemWrite (R43 to R45) -/

/-- Settles O14: away from KBSR_ADDR a read leaves the state as it is; at it the read is the poll, then a lookup. -/
theorem memReadPollsAtKbsrAlone : Obligations.MemReadPollsAtKbsrAlone := by
  intro s
  have hread : s.memRead kbsrAddr = (s.poll.cell kbsrAddr, s.poll) := by rw [State.memRead, State.beforeRead_kbsr]
  rw [hread]
  exact ⟨fun a ha => by rw [State.memRead, State.beforeRead_of_ne _ ha], rfl,
    fun hmem => ⟨State.cell_poll_kbsrValue hmem, polled_poll hmem⟩, fun r _ => s.reg_poll r, s.poll_pc, s.poll_cond,
    s.poll_run⟩

/-- MemWrite touches neither the draw nor the input stream, so the coming poll gives KBSR the same value. -/
@[simp] theorem State.kbsrValue_memWrite (s : State) (a v : Word) : (s.memWrite a v).kbsrValue = s.kbsrValue := rfl

/-- Settles O15: the frame of MemWrite, and the read after it, which polls first at KBSR_ADDR. -/
theorem memWriteStoresAndDoesNothingElse : Obligations.MemWriteStoresAndDoesNothingElse := by
  refine fun s a v => ⟨State.cell_memWrite_same a v, rfl, keptBut_memWrite s a v, fun hmem => ?_⟩
  split
  · next hk =>
    subst hk
    rw [State.memRead_fst, State.beforeRead_kbsr, State.cell_poll_kbsrValue (State.wf_memWrite _ v hmem),
      State.kbsrValue_memWrite]
  · next hk => rw [State.memRead_fst, State.beforeRead_of_ne _ hk, State.cell_memWrite_same a v hmem]

/-! ### The cells an instruction writes (R46) -/

/-- The reads of an instruction change no cell but the two device cells, and none where it reads no memory. -/
theorem State.cell_afterReads_other (s : State) {i : Instr} {a : Word}
    (h : Instr.readsMemory i = true → a ≠ kbsrAddr ∧ a ≠ kbdrAddr) : (s.afterReads i).cell a = s.cell a := by
  cases hreads : Instr.readsMemory i with
  | false => rw [State.afterReads_of_readsMemory_eq_false s hreads]
  | true =>
    obtain ⟨hkbsr, hkbdr⟩ := h hreads
    exact State.afterReads_induct (P := fun u => u.cell a = s.cell a) i rfl fun u _ hu =>
      (State.cell_beforeRead_other u hkbsr hkbdr).trans hu

/-- Settles O44: only a store writes a cell, its own; before a store or a result only the reads may change cells. -/
theorem cellsWrittenByStoresAndPollsAlone : Obligations.CellsWrittenByStoresAndPollsAlone := by
  intro i s t he a hstore hdevice
  have hreads := s.cell_afterReads_other hdevice
  cases effect_of_exec he with
  | result dr v => rw [State.cell_writeResult, hreads]
  | jump => rfl
  | link => rfl
  | store ea v _ haddr =>
    have hne : a ≠ ea := fun hea => hstore (hea ▸ haddr)
    rw [State.cell_memWrite_other _ _ hne, hreads]
  | trap vect u _ _ hu =>
    obtain ⟨-, -, hmem, -⟩ := trapRoutine_next hu
    exact congrArg (Memory.lookup · a.toNat) hmem
  | report => rfl

/-! ### Stores and the fetch (R55) -/

/-- A store form with source `sr` writes the value of `sr` at its address, after its reads (R104 to R106). -/
theorem exec_store {i : Instr} {sr : RegIx} {ea : Word} {s : State}
    (hform : (∃ off9, i = .st sr off9) ∨ (∃ base off6, i = .str sr base off6) ∨ (∃ off9, i = .sti sr off9))
    (haddr : Instr.storeAddr s i = some ea) : exec i s = .next ((s.afterReads i).memWrite ea (s.reg sr)) := by
  obtain ⟨off9, rfl⟩ | ⟨base, off6, rfl⟩ | ⟨off9, rfl⟩ := hform <;> cases haddr <;> rfl

/-- Settles O48: the store leaves the value of SR in the cell, and a fetch away from KBSR_ADDR reads the cell as it
stands. -/
theorem storesAreSeenByFetch : Obligations.StoresAreSeenByFetch := by
  intro i sr ea s t u hwf hform haddr hne he hmem hpc hrun
  obtain rfl := Host.Outcome.next.inj ((exec_store hform haddr).symm.trans he)
  subst hpc
  have hcell : u.cell u.pc = s.reg sr :=
    calc u.cell u.pc = ((s.afterReads i).memWrite u.pc (s.reg sr)).cell u.pc :=
          congrArg (Memory.lookup · u.pc.toNat) hmem
      _ = s.reg sr := State.cell_memWrite_same _ _ (State.wf_afterReads i hwf)
  rw [step_of_running hrun, State.fetch_of_ne u hne, hcell]
  rfl

end Sys2Proof.Machine

/-! PROOFS. The family 30_encoding: the decoder read opcode by opcode, the fields of an encoded word, the words a form
covers, sign extension, and the three ways a step can end. -/

namespace Sys2Proof

open Sys2Proof.Laws

/-! ### The decoder, one equation an opcode (R66, R71) -/

section
variable {w : Word}

theorem decode_of_br (h : opcodeOf (bitField opLo 4 w) = .br) :
    decode w = .br (w.getLsbD nBit) (w.getLsbD zBit) (w.getLsbD pBit) (bitField immLo 9 w) := by rw [decode, h]

theorem decode_of_add (h : opcodeOf (bitField opLo 4 w) = .add) : decode w =
    if w.getLsbD immFlagBit then .addImm (regField drLo w) (regField baseLo w) (bitField immLo 5 w)
    else .addReg (regField drLo w) (regField baseLo w) (regField sr2Lo w) := by rw [decode, h]

theorem decode_of_ld (h : opcodeOf (bitField opLo 4 w) = .ld) :
    decode w = .ld (regField drLo w) (bitField immLo 9 w) := by rw [decode, h]

theorem decode_of_st (h : opcodeOf (bitField opLo 4 w) = .st) :
    decode w = .st (regField drLo w) (bitField immLo 9 w) := by rw [decode, h]

theorem decode_of_jsr (h : opcodeOf (bitField opLo 4 w) = .jsr) : decode w =
    if w.getLsbD jsrFlagBit then .jsr (bitField immLo 11 w) else .jsrr (regField baseLo w) := by rw [decode, h]

theorem decode_of_and (h : opcodeOf (bitField opLo 4 w) = .and) : decode w =
    if w.getLsbD immFlagBit then .andImm (regField drLo w) (regField baseLo w) (bitField immLo 5 w)
    else .andReg (regField drLo w) (regField baseLo w) (regField sr2Lo w) := by rw [decode, h]

theorem decode_of_ldr (h : opcodeOf (bitField opLo 4 w) = .ldr) :
    decode w = .ldr (regField drLo w) (regField baseLo w) (bitField immLo 6 w) := by rw [decode, h]

theorem decode_of_str (h : opcodeOf (bitField opLo 4 w) = .str) :
    decode w = .str (regField drLo w) (regField baseLo w) (bitField immLo 6 w) := by rw [decode, h]

theorem decode_of_reserved8 (h : opcodeOf (bitField opLo 4 w) = .reserved8) : decode w = .reserved8 := by rw [decode, h]

theorem decode_of_not (h : opcodeOf (bitField opLo 4 w) = .not) :
    decode w = .not (regField drLo w) (regField baseLo w) := by rw [decode, h]

theorem decode_of_ldi (h : opcodeOf (bitField opLo 4 w) = .ldi) :
    decode w = .ldi (regField drLo w) (bitField immLo 9 w) := by rw [decode, h]

theorem decode_of_sti (h : opcodeOf (bitField opLo 4 w) = .sti) :
    decode w = .sti (regField drLo w) (bitField immLo 9 w) := by rw [decode, h]

theorem decode_of_jmp (h : opcodeOf (bitField opLo 4 w) = .jmp) : decode w = .jmp (regField baseLo w) := by
  rw [decode, h]

theorem decode_of_reservedD (h : opcodeOf (bitField opLo 4 w) = .reservedD) : decode w = .reservedD := by rw [decode, h]

theorem decode_of_lea (h : opcodeOf (bitField opLo 4 w) = .lea) :
    decode w = .lea (regField drLo w) (bitField immLo 9 w) := by rw [decode, h]

theorem decode_of_trap (h : opcodeOf (bitField opLo 4 w) = .trap) : decode w = trapInstr (bitField immLo 8 w) := by
  rw [decode, h]

end

/-! ### The terms of a TRAP word (R69, R110) -/

/-- What holds of each service at its vector, and of TRAP at every other vector, holds of the term of any vector. -/
theorem trapInstr_induct {P : Byte → Instr → Prop} (vect : Byte) (getc : P Machine.vecGetc .getc)
    (out : P Machine.vecOut .out) (puts : P Machine.vecPuts .puts) (inChar : P Machine.vecIn .inChar)
    (putsp : P Machine.vecPutsp .putsp) (halt : P Machine.vecHalt .halt)
    (trap : isServiceVector vect = false → P vect (.trap vect)) : P vect (trapInstr vect) := by
  unfold trapInstr
  split
  · next h => exact h ▸ getc
  split
  · next h => exact h ▸ out
  split
  · next h => exact h ▸ puts
  split
  · next h => exact h ▸ inChar
  split
  · next h => exact h ▸ putsp
  split
  · next h => exact h ▸ halt
  · next hgetc hout hputs hin hputsp hhalt =>
    exact trap (by simp [isServiceVector, Machine.serviceVectors, hgetc, hout, hputs, hin, hputsp, hhalt])

theorem trapInstr_of_not_service {vect : Byte} : isServiceVector vect = false → trapInstr vect = .trap vect :=
  trapInstr_induct (P := fun v i => isServiceVector v = false → i = .trap v) vect (by decide) (by decide) (by decide)
    (by decide) (by decide) (by decide) fun _ _ => rfl

theorem wellFormed_trapInstr (vect : Byte) : (trapInstr vect).wellFormed = true :=
  trapInstr_induct (P := fun _ i => i.wellFormed = true) vect rfl rfl rfl rfl rfl rfl fun h => by
    simp [Instr.wellFormed, h]

theorem encode_trapInstr (vect : Byte) : encode (trapInstr vect) = encodeTrap vect :=
  trapInstr_induct (P := fun v i => encode i = encodeTrap v) vect rfl rfl rfl rfl rfl rfl fun _ => rfl

theorem usedBits_trapInstr (vect : Byte) : usedBits (trapInstr vect) = 0xF0FF :=
  trapInstr_induct (P := fun _ i => usedBits i = 0xF0FF) vect rfl rfl rfl rfl rfl rfl fun _ => rfl

/-! ### The fields of an encoded word (R62): what was placed there, and 0 where it was placed elsewhere -/

@[simp] theorem bitField_placeReg_same {lo : Nat} (r : RegIx) (h : lo + 3 ≤ 16) :
    bitField lo 3 (placeReg lo r) = BitVec.ofNat 3 r.val :=
  bitField_placeField_same _ h

@[simp] theorem bitField_placeReg_apart {n lo at' : Nat} (r : RegIx) (h : lo + n ≤ at' ∨ at' + 3 ≤ lo) :
    bitField lo n (placeReg at' r) = 0 :=
  bitField_placeField_apart _ h

@[simp] theorem bitField_placeBit_same {lo : Nat} (b : Bool) (h : lo + 1 ≤ 16) :
    bitField lo 1 (placeBit lo b) = BitVec.ofBool b :=
  bitField_placeField_same _ h

@[simp] theorem bitField_placeBit_apart {n lo at' : Nat} (b : Bool) (h : lo + n ≤ at' ∨ at' + 1 ≤ lo) :
    bitField lo n (placeBit at' b) = 0 :=
  bitField_placeField_apart _ h

@[simp] theorem bitField_placeOp_apart {n lo : Nat} (op : Opcode) (h : lo + n ≤ 12) :
    bitField lo n (placeOp op) = 0 :=
  bitField_placeField_apart _ (.inl h)

theorem decode_encodeTrap (vect : Byte) : decode (encodeTrap vect) = trapInstr vect := by
  rw [decode_of_trap (show opcodeOf (bitField opLo 4 (encodeTrap vect)) = .trap from EncodedOpcode.trap vect)]
  simp (disch := decide) [encodeTrap, bitField_placeField_same]

/-- Settles O2: the word's opcode selects the form, and each of the form's fields reads back as it was placed; a TRAP
word decodes to the term of its vector. -/
theorem decodeOfEncodeIsTheInstruction : Obligations.DecodeOfEncodeIsTheInstruction := by
  intro i hwf
  cases i with
  | addReg dr sr1 sr2 =>
    rw [decode_of_add (EncodedOpcode.addReg dr sr1 sr2), getLsbD_eq_bitField immFlagBit]
    simp (disch := decide) [encode, regField_eq_toFin]
  | addImm dr sr1 imm5 =>
    rw [decode_of_add (EncodedOpcode.addImm dr sr1 imm5), getLsbD_eq_bitField immFlagBit]
    simp (disch := decide) [encode, regField_eq_toFin, bitField_placeField_same, bitField_placeField_apart]
  | andReg dr sr1 sr2 =>
    rw [decode_of_and (EncodedOpcode.andReg dr sr1 sr2), getLsbD_eq_bitField immFlagBit]
    simp (disch := decide) [encode, regField_eq_toFin]
  | andImm dr sr1 imm5 =>
    rw [decode_of_and (EncodedOpcode.andImm dr sr1 imm5), getLsbD_eq_bitField immFlagBit]
    simp (disch := decide) [encode, regField_eq_toFin, bitField_placeField_same, bitField_placeField_apart]
  | not dr sr =>
    rw [decode_of_not (EncodedOpcode.not dr sr)]
    simp (disch := decide) [encode, regField_eq_toFin, bitField_placeField_apart]
  | br n z p off9 =>
    rw [decode_of_br (EncodedOpcode.br n z p off9), getLsbD_eq_bitField nBit, getLsbD_eq_bitField zBit,
      getLsbD_eq_bitField pBit]
    simp (disch := decide) [encode, bitField_placeField_same, bitField_placeField_apart]
  | jmp base =>
    rw [decode_of_jmp (EncodedOpcode.jmp base)]
    simp (disch := decide) [encode, regField_eq_toFin]
  | jsr off11 =>
    rw [decode_of_jsr (EncodedOpcode.jsr off11), getLsbD_eq_bitField jsrFlagBit]
    simp (disch := decide) [encode, bitField_placeField_same, bitField_placeField_apart]
  | jsrr base =>
    rw [decode_of_jsr (EncodedOpcode.jsrr base), getLsbD_eq_bitField jsrFlagBit]
    simp (disch := decide) [encode, regField_eq_toFin]
  | ld dr off9 =>
    rw [decode_of_ld (EncodedOpcode.ld dr off9)]
    simp (disch := decide) [encode, regField_eq_toFin, bitField_placeField_same, bitField_placeField_apart]
  | ldi dr off9 =>
    rw [decode_of_ldi (EncodedOpcode.ldi dr off9)]
    simp (disch := decide) [encode, regField_eq_toFin, bitField_placeField_same, bitField_placeField_apart]
  | ldr dr base off6 =>
    rw [decode_of_ldr (EncodedOpcode.ldr dr base off6)]
    simp (disch := decide) [encode, regField_eq_toFin, bitField_placeField_same, bitField_placeField_apart]
  | lea dr off9 =>
    rw [decode_of_lea (EncodedOpcode.lea dr off9)]
    simp (disch := decide) [encode, regField_eq_toFin, bitField_placeField_same, bitField_placeField_apart]
  | st sr off9 =>
    rw [decode_of_st (EncodedOpcode.st sr off9)]
    simp (disch := decide) [encode, regField_eq_toFin, bitField_placeField_same, bitField_placeField_apart]
  | sti sr off9 =>
    rw [decode_of_sti (EncodedOpcode.sti sr off9)]
    simp (disch := decide) [encode, regField_eq_toFin, bitField_placeField_same, bitField_placeField_apart]
  | str sr base off6 =>
    rw [decode_of_str (EncodedOpcode.str sr base off6)]
    simp (disch := decide) [encode, regField_eq_toFin, bitField_placeField_same, bitField_placeField_apart]
  | trap vect =>
    calc decode (encode (.trap vect)) = trapInstr vect := decode_encodeTrap vect
      _ = .trap vect := trapInstr_of_not_service (by simpa [Instr.wellFormed] using hwf)
  | getc => exact decode_encodeTrap Machine.vecGetc
  | out => exact decode_encodeTrap Machine.vecOut
  | puts => exact decode_encodeTrap Machine.vecPuts
  | inChar => exact decode_encodeTrap Machine.vecIn
  | putsp => exact decode_encodeTrap Machine.vecPutsp
  | halt => exact decode_encodeTrap Machine.vecHalt
  | reserved8 => exact decode_of_reserved8 EncodedOpcode.reserved8
  | reservedD => exact decode_of_reservedD EncodedOpcode.reservedD

/-! ### A decoded word encoded again (R66)

Each field put back is the word's bits under a mask. `<layout>_used` says that the fields of a layout, put back, agree
with the word on the bits the layout uses, because their masks cover those bits. -/

/-- The word whose bits are 1 in the `n`-bit field from bit `lo` up. -/
def fieldMask (lo n : Nat) : Word := placeField lo (bitField lo n (BitVec.allOnes 16))

theorem placeField_bitField (lo n : Nat) (w : Word) : placeField lo (bitField lo n w) = w &&& fieldMask lo n := by
  refine BitVec.eq_of_getLsbD_eq fun j hj => ?_
  rw [BitVec.getLsbD_and, fieldMask, getLsbD_placeField_bitField w hj, getLsbD_placeField_bitField _ hj,
    BitVec.getLsbD_allOnes, decide_eq_true hj, Bool.and_true, Bool.and_comm]

section
variable {w : Word} {op : Opcode}

theorem placeOp_of_opcodeOf (h : opcodeOf (bitField opLo 4 w) = op) : placeOp op = w &&& fieldMask opLo 4 := by
  rw [← h, placeOp_opcodeOf, placeField_bitField]

theorem placeBit_of_getLsbD {lo : Nat} {b : Bool} (h : w.getLsbD lo = b) : placeBit lo b = w &&& fieldMask lo 1 := by
  rw [← h, placeBit_getLsbD, placeField_bitField]

/-- The mode bit of a register form is not placed: it is 0. -/
theorem or_placeBit_false (v : Word) (lo : Nat) : v ||| placeBit lo false = v := by
  simp [placeBit, placeField]

/-- A word cut down to a mask that holds all of `used` keeps the bits of `used`. -/
theorem and_and_of_covers {mask used : Word} (h : mask &&& used = used) : w &&& mask &&& used = w &&& used := by
  rw [BitVec.and_assoc, h]

theorem opcode_used (h : opcodeOf (bitField opLo 4 w) = op) : placeOp op &&& 0xF000 = w &&& 0xF000 := by
  rw [placeOp_of_opcodeOf h]
  exact and_and_of_covers (by decide)

theorem pcOffset9_used (h : opcodeOf (bitField opLo 4 w) = op) :
    (placeOp op ||| placeReg drLo (regField drLo w) ||| placeField immLo (bitField immLo 9 w)) &&& 0xFFFF =
      w &&& 0xFFFF := by
  simp only [placeOp_of_opcodeOf h, placeReg_regField, placeField_bitField, ← BitVec.and_or_distrib_left]
  exact and_and_of_covers (by decide)

theorem baseOffset6_used (h : opcodeOf (bitField opLo 4 w) = op) :
    (placeOp op ||| placeReg drLo (regField drLo w) ||| placeReg baseLo (regField baseLo w) |||
      placeField immLo (bitField immLo 6 w)) &&& 0xFFFF = w &&& 0xFFFF := by
  simp only [placeOp_of_opcodeOf h, placeReg_regField, placeField_bitField, ← BitVec.and_or_distrib_left]
  exact and_and_of_covers (by decide)

theorem immediate_used (h : opcodeOf (bitField opLo 4 w) = op) (hflag : w.getLsbD immFlagBit = true) :
    (placeOp op ||| placeReg drLo (regField drLo w) ||| placeReg baseLo (regField baseLo w) |||
      placeBit immFlagBit true ||| placeField immLo (bitField immLo 5 w)) &&& 0xFFFF = w &&& 0xFFFF := by
  simp only [placeOp_of_opcodeOf h, placeReg_regField, placeBit_of_getLsbD hflag, placeField_bitField,
    ← BitVec.and_or_distrib_left]
  exact and_and_of_covers (by decide)

theorem register_used (h : opcodeOf (bitField opLo 4 w) = op) (hflag : w.getLsbD immFlagBit = false) :
    (placeOp op ||| placeReg drLo (regField drLo w) ||| placeReg baseLo (regField baseLo w) |||
      placeReg sr2Lo (regField sr2Lo w)) &&& 0xFFE7 = w &&& 0xFFE7 := by
  rw [← or_placeBit_false (_ ||| placeReg sr2Lo _) immFlagBit]
  simp only [placeOp_of_opcodeOf h, placeReg_regField, placeBit_of_getLsbD hflag, placeField_bitField,
    ← BitVec.and_or_distrib_left]
  exact and_and_of_covers (by decide)

theorem br_used (h : opcodeOf (bitField opLo 4 w) = op) :
    (placeOp op ||| placeBit nBit (w.getLsbD nBit) ||| placeBit zBit (w.getLsbD zBit) |||
      placeBit pBit (w.getLsbD pBit) ||| placeField immLo (bitField immLo 9 w)) &&& 0xFFFF = w &&& 0xFFFF := by
  simp only [placeOp_of_opcodeOf h, placeBit_getLsbD, placeField_bitField, ← BitVec.and_or_distrib_left]
  exact and_and_of_covers (by decide)

theorem jsr_used (h : opcodeOf (bitField opLo 4 w) = op) (hflag : w.getLsbD jsrFlagBit = true) :
    (placeOp op ||| placeBit jsrFlagBit true ||| placeField immLo (bitField immLo 11 w)) &&& 0xFFFF =
      w &&& 0xFFFF := by
  simp only [placeOp_of_opcodeOf h, placeBit_of_getLsbD hflag, placeField_bitField, ← BitVec.and_or_distrib_left]
  exact and_and_of_covers (by decide)

theorem jsrr_used (h : opcodeOf (bitField opLo 4 w) = op) (hflag : w.getLsbD jsrFlagBit = false) :
    (placeOp op ||| placeReg baseLo (regField baseLo w)) &&& 0xF9C0 = w &&& 0xF9C0 := by
  rw [← or_placeBit_false (_ ||| placeReg baseLo _) jsrFlagBit]
  simp only [placeOp_of_opcodeOf h, placeReg_regField, placeBit_of_getLsbD hflag, placeField_bitField,
    ← BitVec.and_or_distrib_left]
  exact and_and_of_covers (by decide)

theorem jmp_used (h : opcodeOf (bitField opLo 4 w) = op) :
    (placeOp op ||| placeReg baseLo (regField baseLo w)) &&& 0xF1C0 = w &&& 0xF1C0 := by
  simp only [placeOp_of_opcodeOf h, placeReg_regField, placeField_bitField, ← BitVec.and_or_distrib_left]
  exact and_and_of_covers (by decide)

/-- What NOT's ignored bits are filled with lies outside the bits NOT uses. -/
theorem not_used (h : opcodeOf (bitField opLo 4 w) = op) :
    (placeOp op ||| placeReg drLo (regField drLo w) ||| placeReg baseLo (regField baseLo w) |||
      placeField immLo notFill) &&& 0xFFC0 = w &&& 0xFFC0 := by
  have hfill : placeField immLo notFill &&& 0xFFC0 = 0#16 := by decide
  rw [BitVec.and_or_distrib_right, hfill, BitVec.or_zero]
  simp only [placeOp_of_opcodeOf h, placeReg_regField, placeField_bitField, ← BitVec.and_or_distrib_left]
  exact and_and_of_covers (by decide)

theorem encodeTrap_used (h : opcodeOf (bitField opLo 4 w) = .trap) :
    encodeTrap (bitField immLo 8 w) &&& 0xF0FF = w &&& 0xF0FF := by
  simp only [encodeTrap, placeOp_of_opcodeOf h, placeField_bitField, ← BitVec.and_or_distrib_left]
  exact and_and_of_covers (by decide)

end

/-- Settles O3: each opcode's form is well-formed, and the fields it places back cover the bits it uses. -/
theorem everyWordDecodesAndKeepsItsUsedBits : Obligations.EveryWordDecodesAndKeepsItsUsedBits := by
  intro w
  cases h : opcodeOf (bitField opLo 4 w) with
  | br => rw [decode_of_br h]; exact ⟨rfl, br_used h⟩
  | add =>
    rw [decode_of_add h]
    split
    · next hflag => exact ⟨rfl, immediate_used h hflag⟩
    · next hflag => exact ⟨rfl, register_used h (Bool.eq_false_iff.mpr hflag)⟩
  | and =>
    rw [decode_of_and h]
    split
    · next hflag => exact ⟨rfl, immediate_used h hflag⟩
    · next hflag => exact ⟨rfl, register_used h (Bool.eq_false_iff.mpr hflag)⟩
  | jsr =>
    rw [decode_of_jsr h]
    split
    · next hflag => exact ⟨rfl, jsr_used h hflag⟩
    · next hflag => exact ⟨rfl, jsrr_used h (Bool.eq_false_iff.mpr hflag)⟩
  | ld => rw [decode_of_ld h]; exact ⟨rfl, pcOffset9_used h⟩
  | st => rw [decode_of_st h]; exact ⟨rfl, pcOffset9_used h⟩
  | ldi => rw [decode_of_ldi h]; exact ⟨rfl, pcOffset9_used h⟩
  | sti => rw [decode_of_sti h]; exact ⟨rfl, pcOffset9_used h⟩
  | lea => rw [decode_of_lea h]; exact ⟨rfl, pcOffset9_used h⟩
  | ldr => rw [decode_of_ldr h]; exact ⟨rfl, baseOffset6_used h⟩
  | str => rw [decode_of_str h]; exact ⟨rfl, baseOffset6_used h⟩
  | not => rw [decode_of_not h]; exact ⟨rfl, not_used h⟩
  | jmp => rw [decode_of_jmp h]; exact ⟨rfl, jmp_used h⟩
  | trap =>
    rw [decode_of_trap h, encode_trapInstr, usedBits_trapInstr]
    exact ⟨wellFormed_trapInstr _, encodeTrap_used h⟩
  | reserved8 => rw [decode_of_reserved8 h]; exact ⟨rfl, opcode_used h⟩
  | reservedD => rw [decode_of_reservedD h]; exact ⟨rfl, opcode_used h⟩

/-! ### The ignored bits (R67, D16): a form's word decodes by the fields its form names -/

/-- The fields of a word that holds a form's fixed bits are those of the fixed bits. -/
theorem bitField_of_form {w form fixed : Word} {lo n : Nat} (h : w &&& form = fixed)
    (hm : ∀ k, k < n → form.getLsbD (lo + k) = true) : bitField lo n w = bitField lo n fixed :=
  bitField_eq_of_and_eq (m := form) (by rw [← h, BitVec.and_assoc, BitVec.and_self]) hm

theorem getLsbD_of_form {w form fixed : Word} {lo : Nat} (h : w &&& form = fixed) (hm : form.getLsbD lo = true) :
    w.getLsbD lo = fixed.getLsbD lo := by
  rw [← h, BitVec.getLsbD_and, hm, Bool.and_true]

theorem regField_eq_of_and_eq {v w mask : Word} {lo : Nat} (h : v &&& mask = w &&& mask)
    (hm : ∀ k, k < 3 → mask.getLsbD (lo + k) = true) : regField lo v = regField lo w :=
  congrArg BitVec.toFin (bitField_eq_of_and_eq h hm)

/-- A word that agrees with a word of a form on bits that hold the fixed ones is a word of the form. -/
theorem form_of_and_eq {v w form fixed mask : Word} (h : v &&& form = fixed) (hagree : v &&& mask = w &&& mask)
    (hm : mask &&& form = form) : w &&& form = fixed := by
  calc w &&& form = w &&& mask &&& form := (and_and_of_covers hm).symm
    _ = v &&& mask &&& form := by rw [hagree]
    _ = fixed := (and_and_of_covers hm).trans h

section
variable {w : Word}

theorem decode_addReg_form (h : w &&& 0xF020 = 0x1000) :
    decode w = .addReg (regField drLo w) (regField baseLo w) (regField sr2Lo w) := by
  have hop := congrArg opcodeOf (bitField_of_form (lo := opLo) (n := 4) h (by decide))
  have hflag : w.getLsbD immFlagBit = false := getLsbD_of_form h (by decide)
  rw [decode_of_add hop, hflag]
  rfl

theorem decode_andReg_form (h : w &&& 0xF020 = 0x5000) :
    decode w = .andReg (regField drLo w) (regField baseLo w) (regField sr2Lo w) := by
  have hop := congrArg opcodeOf (bitField_of_form (lo := opLo) (n := 4) h (by decide))
  have hflag : w.getLsbD immFlagBit = false := getLsbD_of_form h (by decide)
  rw [decode_of_and hop, hflag]
  rfl

theorem decode_jsrr_form (h : w &&& 0xF800 = 0x4000) : decode w = .jsrr (regField baseLo w) := by
  have hop := congrArg opcodeOf (bitField_of_form (lo := opLo) (n := 4) h (by decide))
  have hflag : w.getLsbD jsrFlagBit = false := getLsbD_of_form h (by decide)
  rw [decode_of_jsr hop, hflag]
  rfl

theorem decode_not_form (h : w &&& 0xF000 = 0x9000) : decode w = .not (regField drLo w) (regField baseLo w) :=
  decode_of_not (congrArg opcodeOf (bitField_of_form h (by decide)))

theorem decode_jmp_form (h : w &&& 0xF000 = 0xC000) : decode w = .jmp (regField baseLo w) :=
  decode_of_jmp (congrArg opcodeOf (bitField_of_form h (by decide)))

theorem decode_trap_form (h : w &&& 0xF000 = 0xF000) : decode w = trapInstr (bitField immLo 8 w) :=
  decode_of_trap (congrArg opcodeOf (bitField_of_form h (by decide)))

theorem decode_reserved8_form (h : w &&& 0xF000 = 0x8000) : decode w = .reserved8 :=
  decode_of_reserved8 (congrArg opcodeOf (bitField_of_form h (by decide)))

theorem decode_reservedD_form (h : w &&& 0xF000 = 0xD000) : decode w = .reservedD :=
  decode_of_reservedD (congrArg opcodeOf (bitField_of_form h (by decide)))

end

/-- Settles O4: a word that agrees on the bits of a form is of that form too, and its fields are the same. -/
theorem ignoredBitsAreIgnored : Obligations.IgnoredBitsAreIgnored := by
  intro w w'
  refine ⟨fun h hagree => ?addReg, fun h hagree => ?andReg, fun h hagree => ?not, fun h hagree => ?jmp,
    fun h hagree => ?jsrr, fun h hagree => ?trap, fun h hagree => ?reserved8, fun h hagree => ?reservedD⟩
  case addReg =>
    rw [decode_addReg_form h, decode_addReg_form (form_of_and_eq h hagree (by decide)),
      regField_eq_of_and_eq (lo := drLo) hagree (by decide), regField_eq_of_and_eq (lo := baseLo) hagree (by decide),
      regField_eq_of_and_eq (lo := sr2Lo) hagree (by decide)]
  case andReg =>
    rw [decode_andReg_form h, decode_andReg_form (form_of_and_eq h hagree (by decide)),
      regField_eq_of_and_eq (lo := drLo) hagree (by decide), regField_eq_of_and_eq (lo := baseLo) hagree (by decide),
      regField_eq_of_and_eq (lo := sr2Lo) hagree (by decide)]
  case not =>
    rw [decode_not_form h, decode_not_form (form_of_and_eq h hagree (by decide)),
      regField_eq_of_and_eq (lo := drLo) hagree (by decide), regField_eq_of_and_eq (lo := baseLo) hagree (by decide)]
  case jmp =>
    rw [decode_jmp_form h, decode_jmp_form (form_of_and_eq h hagree (by decide)),
      regField_eq_of_and_eq (lo := baseLo) hagree (by decide)]
  case jsrr =>
    rw [decode_jsrr_form h, decode_jsrr_form (form_of_and_eq h hagree (by decide)),
      regField_eq_of_and_eq (lo := baseLo) hagree (by decide)]
  case trap =>
    rw [decode_trap_form h, decode_trap_form (form_of_and_eq h hagree (by decide)),
      bitField_eq_of_and_eq hagree (by decide)]
  case reserved8 =>
    rw [decode_reserved8_form h, decode_reserved8_form (form_of_and_eq h hagree (by decide))]
  case reservedD =>
    rw [decode_reservedD_form h, decode_reservedD_form (form_of_and_eq h hagree (by decide))]

/-- Settles O5: the decoder evaluated on each of the eleven words. -/
theorem theSpecsWordsDecode : Obligations.TheSpecsWordsDecode := by
  unfold Obligations.TheSpecsWordsDecode
  decide

end Sys2Proof

namespace Sys2Proof.Machine

/-! ### Sign extension (R63) -/

/-- OR-ing ones above a field whose top bit is set is the extension of its sign. -/
theorem sext_eq_signExtend {n : Nat} (x : BitVec n) : sext x = x.signExtend 16 := by
  cases hmsb : x.msb with
  | false => rw [BitVec.signExtend_eq_setWidth_of_msb_false hmsb]; simp [sext, hmsb]
  | true =>
    refine BitVec.eq_of_getLsbD_eq fun i hi => ?_
    have hones : (0xFFFF#16).getLsbD (i - n) = true := by
      rw [show 0xFFFF#16 = BitVec.allOnes 16 from rfl, BitVec.getLsbD_allOnes, decide_eq_true (by omega)]
    rw [sext, if_pos hmsb, BitVec.getLsbD_or, BitVec.getLsbD_setWidth, BitVec.getLsbD_shiftLeft,
      BitVec.getLsbD_signExtend, hmsb, hones]
    by_cases hin : i < n
    · simp [hi, hin]
    · simp [hi, hin]

/-- Settles O1: the top bit chooses the branch of `sext`, which is the sign extension and so keeps the value. -/
theorem signExtensionFollowsTheSource : Obligations.SignExtensionFollowsTheSource := by
  refine ⟨fun n _ hn x => ⟨fun htop => ?_, fun htop => ?_, ?_⟩, rfl, rfl⟩
  · rw [sext, if_pos (x.msb_eq_getLsbD_last.trans htop)]
  · rw [sext, if_neg (by rw [x.msb_eq_getLsbD_last, htop]; exact Bool.false_ne_true)]
  · rw [sext_eq_signExtend, BitVec.toInt_signExtend_of_le hn]

/-! ### Where a step stops (R119, R125) -/

theorem trapRoutine_waits {vect : Byte} {s : State} (htakes : vect = vecGetc ∨ vect = vecIn) (h : s.input = []) :
    trapRoutine vect s = .fault .awaitingInput := by
  obtain rfl | rfl := htakes
  · exact serviceGetc_of_nil trapSetsFlags h
  · exact serviceIn_of_nil inPrompt trapSetsFlags h

theorem trapRoutine_goes_on {vect : Byte} {s : State} (h : vect = vecGetc ∨ vect = vecIn → s.input ≠ []) :
    ∃ u, trapRoutine vect s = .next u := by
  unfold trapRoutine
  split
  · next hv =>
    obtain ⟨b, rest, hi⟩ := List.exists_cons_of_ne_nil (h (.inl hv))
    exact ⟨_, serviceGetc_of_cons _ hi⟩
  split
  · exact ⟨_, rfl⟩
  split
  · exact ⟨_, rfl⟩
  split
  · next hv =>
    obtain ⟨b, rest, hi⟩ := List.exists_cons_of_ne_nil (h (.inr hv))
    exact ⟨_, serviceIn_of_cons _ _ hi⟩
  split
  · exact ⟨_, rfl⟩
  split
  · exact ⟨_, rfl⟩
  · exact ⟨_, rfl⟩

theorem execTrap_waits {vect : Byte} {s : State} (htakes : vect = vecGetc ∨ vect = vecIn) (h : s.input = []) :
    execTrap vect s = .fault .awaitingInput := by
  rw [execTrap, trapSequence, trapRoutine_waits (s := trapEnter vect s) htakes h, onNext_fault]

theorem execTrap_goes_on {vect : Byte} {s : State} (h : vect = vecGetc ∨ vect = vecIn → s.input ≠ []) :
    ∃ t, execTrap vect s = .next t := by
  obtain ⟨u, hu⟩ := trapRoutine_goes_on (s := trapEnter vect s) h
  exact ⟨_, trapSequence_eq_next.mpr ⟨u, hu, rfl⟩⟩

theorem takesInput_trap {vect : Byte} : Instr.takesInput (.trap vect) = true ↔ vect = vecGetc ∨ vect = vecIn := by
  simp [Instr.takesInput]

/-- An instruction that takes input has no step without a byte (R119). -/
theorem exec_waits {i : Instr} {s : State} (htakes : Instr.takesInput i = true) (h : s.input = []) :
    exec i s = .fault .awaitingInput := by
  cases i with
  | getc => exact execTrap_waits (.inl rfl) h
  | inChar => exact execTrap_waits (.inr rfl) h
  | trap vect => exact execTrap_waits (takesInput_trap.mp htakes) h
  | _ => cases htakes

/-- Every other instruction goes on, and so does one that takes input where there is a byte. -/
theorem exec_goes_on {i : Instr} {s : State} (h : Instr.takesInput i = true → s.input ≠ []) :
    ∃ t, exec i s = .next t := by
  cases i with
  | trap vect => exact execTrap_goes_on fun htakes => h (takesInput_trap.mpr htakes)
  | getc => exact execTrap_goes_on (vect := vecGetc) fun _ => h rfl
  | inChar => exact execTrap_goes_on (vect := vecIn) fun _ => h rfl
  | _ => exact ⟨_, rfl⟩

/-- A fetch that polls reads no instruction that takes input, so whether a step waits may be asked before the fetch. -/
theorem input_fetch_of_takesInput {s : State} (hmem : Memory.wf s.mem = true)
    (h : Instr.takesInput (decode s.fetch.1) = true) : s.fetch.2.input = s.input := by
  by_cases hk : s.pc = kbsrAddr
  · rw [State.fetch_word_kbsr hk hmem, State.kbsrValue] at h
    split at h <;> exact absurd h (by decide)
  · rw [State.fetch_of_ne s hk]; rfl

theorem step_of_waiting {s : State} (hmem : Memory.wf s.mem = true) (h : s.waiting) :
    step s = .fault .awaitingInput := by
  obtain ⟨hrun, htakes, hinput⟩ := h
  rw [step_of_running hrun]
  exact exec_waits htakes ((input_fetch_of_takesInput hmem htakes).trans hinput)

theorem step_goes_on {s : State} (hmem : Memory.wf s.mem = true) (hrun : s.run = .running) (h : ¬ s.waiting) :
    ∃ t, step s = .next t := by
  rw [step_of_running hrun]
  refine exec_goes_on fun htakes hinput => h ⟨hrun, htakes, ?_⟩
  exact (input_fetch_of_takesInput hmem htakes).symm.trans hinput

theorem step_of_halted {s : State} (h : s.run = .halted) : step s = .fault .halted := by
  rw [step, h]

/-- Settles O36: the core is HALTED, or waits, or goes on, and the outcome of the step is different in each. -/
theorem stepStopsOnlyHaltedOrWaiting : Obligations.StepStopsOnlyHaltedOrWaiting := by
  intro s hmem
  cases hrun : s.run with
  | halted =>
    have hwait : ¬ s.waiting := fun ⟨h, _⟩ => nomatch hrun.symm.trans h
    rw [step_of_halted hrun]
    exact ⟨⟨nofun, nofun⟩, iff_of_true rfl rfl, iff_of_false nofun hwait, nofun⟩
  | running =>
    by_cases hwait : s.waiting
    · rw [step_of_waiting hmem hwait]
      exact ⟨⟨nofun, fun ⟨_, hnot⟩ => absurd hwait hnot⟩, ⟨nofun, nofun⟩, iff_of_true rfl hwait, nofun⟩
    · obtain ⟨t, ht⟩ := step_goes_on hmem hrun hwait
      rw [ht]
      exact ⟨iff_of_true ⟨t, rfl⟩ ⟨rfl, hwait⟩, ⟨nofun, nofun⟩, iff_of_false nofun hwait, nofun⟩

end Sys2Proof.Machine

/-! PROOFS. The family 40_operate: ADD, AND and NOT, from the word to the next state. -/

namespace Sys2Proof.Machine

/-- The number in bits 15:12 selects the opcode (R62, R65). -/
theorem opcodeOf_bitField_of_extractLsb {w : Word} {code : BitVec 4} (h : w.extractLsb 15 12 = code) :
    opcodeOf (bitField opLo 4 w) = opcodeOf code :=
  congrArg opcodeOf h

/-- Settles O7: opcode 0x1 selects the ADD forms, and each ends in `writeResult` of the sum. -/
theorem addWritesTheSumAndItsFlags : Obligations.AddWritesTheSumAndItsFlags := by
  refine ⟨fun w hop => ?decoded, fun s dr sr1 sr2 => ?register, fun s dr sr1 imm5 => ?immediate⟩
  case decoded => exact decode_of_add (opcodeOf_bitField_of_extractLsb hop)
  case register => exact ⟨_, rfl, resultWritten_writeResult s dr (s.reg sr1 + s.reg sr2)⟩
  case immediate => exact ⟨_, rfl, resultWritten_writeResult s dr (s.reg sr1 + sext imm5)⟩

/-- Settles O8: opcode 0x5 selects the AND forms, and each ends in `writeResult` of the conjunction. -/
theorem andWritesTheConjunctionAndItsFlags : Obligations.AndWritesTheConjunctionAndItsFlags := by
  refine ⟨fun w hop => ?decoded, fun s dr sr1 sr2 => ?register, fun s dr sr1 imm5 => ?immediate⟩
  case decoded => exact decode_of_and (opcodeOf_bitField_of_extractLsb hop)
  case register => exact ⟨_, rfl, resultWritten_writeResult s dr (s.reg sr1 &&& s.reg sr2)⟩
  case immediate => exact ⟨_, rfl, resultWritten_writeResult s dr (s.reg sr1 &&& sext imm5)⟩

/-- Settles O9: opcode 0x9 selects NOT, which ends in `writeResult` of the complement. -/
theorem notWritesTheComplementAndItsFlags : Obligations.NotWritesTheComplementAndItsFlags := by
  refine ⟨fun w hop => ?decoded, fun s dr sr => ?complement⟩
  case decoded => exact decode_of_not (opcodeOf_bitField_of_extractLsb hop)
  case complement => exact ⟨_, rfl, resultWritten_writeResult s dr (~~~ s.reg sr)⟩

end Sys2Proof.Machine

/-! PROOFS. The family 41_control: BR, JMP, JSR and JSRR, from the word to the next state. -/

namespace Sys2Proof.Machine

/-! ### The condition mask against COND (R25, R90) -/

/-- The mask meets COND bit by bit: n its bit 2, z its bit 1, p its bit 0, and no other bit of COND counts. -/
theorem condMask_and (n z p : Bool) (c : Word) :
    condMask n z p &&& c = condMask (n && c.getLsbD 2) (z && c.getLsbD 1) (p && c.getLsbD 0) := by
  apply BitVec.eq_of_getLsbD_eq
  intro k _
  -- `Nat.reduceAdd` would change the width 1 + 1 + 1, and `getElem_append` would no longer apply.
  match k with
  | 0 | 1 | 2 => simp [condMask, BitVec.getElem_append, -Nat.reduceAdd]
  | _ + 3 => simp [condMask]

theorem condMask_ne_zero_iff (n z p : Bool) : condMask n z p ≠ 0 ↔ (n || z || p) = true := by
  revert n z p
  decide

theorem execBr_eq_of_bits (n z p : Bool) (off9 : BitVec 9) (s : State) : execBr n z p off9 s = .next (s.setPc
    (if (n && s.cond.getLsbD 2) || (z && s.cond.getLsbD 1) || (p && s.cond.getLsbD 0) then s.pc + sext off9
      else s.pc)) := by
  simp only [execBr_eq, condMask_and, condMask_ne_zero_iff, State.pcRel]

/-- A legal COND has the bit of its code set (R25). -/
theorem State.condLegal.meets_full_mask {s : State} (h : s.condLegal) :
    (s.cond.getLsbD 2 || s.cond.getLsbD 1 || s.cond.getLsbD 0) = true := by
  obtain hcode | hcode | hcode := h <;> rw [hcode] <;> rfl

/-! ### What a transfer keeps (R94) -/

theorem keptBut_setPc (s : State) (v : Word) : KeptBut [] [] s (s.setPc v) :=
  ⟨fun _ _ => rfl, fun _ _ => rfl, rfl, rfl, ⟨rfl, rfl, rfl⟩, rfl, rfl⟩

/-- A transfer that links writes the link register and PC alone. -/
theorem keptBut_writeReg_setPc (s : State) (r : RegIx) (link target : Word) :
    KeptBut [r] [] s ((s.writeReg r link).setPc target) :=
  ⟨fun _ hq => State.reg_writeReg_other s link (List.mem_singleton.not.mp hq), fun _ _ => rfl, rfl, rfl,
    ⟨rfl, rfl, rfl⟩, rfl, rfl⟩

/-! ### The four instructions -/

/-- Settles O10: the mask test read bit by bit; the empty mask has no bit to meet, and the full one meets the bit of
any legal code. -/
theorem brTestsTheMaskAgainstCond : Obligations.BrTestsTheMaskAgainstCond := by
  refine ⟨fun w hop => ?decoded, fun s n z p off9 => ?general, fun s off9 => ?never, fun s off9 hlegal => ?always⟩
  case decoded => exact decode_of_br (opcodeOf_bitField_of_extractLsb hop)
  case general => exact ⟨_, execBr_eq_of_bits n z p off9 s, rfl, keptBut_setPc s _⟩
  case never => exact execBr_eq_of_bits false false false off9 s
  case always => exact ⟨_, execBr_eq_of_bits true true true off9 s, if_pos hlegal.meets_full_mask⟩

/-- Settles O11: opcode 0xC selects JMP, which sets PC to the base register. -/
theorem jmpGoesToTheBaseRegister : Obligations.JmpGoesToTheBaseRegister := by
  refine ⟨fun w hop => ?decoded, fun s base => ?jump⟩
  case decoded => exact decode_of_jmp (opcodeOf_bitField_of_extractLsb hop)
  case jump => exact ⟨_, rfl, rfl, keptBut_setPc s (s.reg base)⟩

/-- Settles O12: opcode 0x4 with bit 11 set selects JSR, which links and goes to PC plus the offset. -/
theorem jsrLinksAndGoesRelative : Obligations.JsrLinksAndGoesRelative := by
  refine ⟨fun w hop hflag => ?decoded, fun s off11 => ?link⟩
  case decoded => exact (decode_of_jsr (opcodeOf_bitField_of_extractLsb hop)).trans (if_pos hflag)
  case link =>
    exact ⟨_, rfl, State.reg_writeReg_same s linkReg s.pc, rfl, keptBut_writeReg_setPc s linkReg s.pc _⟩

/-- Settles O13: opcode 0x4 with bit 11 clear selects JSRR, which reads its base after R7 was written, so R7 as the base
is the return address. -/
theorem jsrrLinksBeforeItReadsTheBase : Obligations.JsrrLinksBeforeItReadsTheBase := by
  refine ⟨fun w hop hflag => ?decoded, fun s base => ?link⟩
  case decoded =>
    exact (decode_of_jsr (opcodeOf_bitField_of_extractLsb hop)).trans (if_neg (Bool.eq_false_iff.mp hflag))
  case link =>
    exact ⟨_, rfl, State.reg_writeReg_same s linkReg s.pc, State.reg_writeReg s linkReg base s.pc,
      keptBut_writeReg_setPc s linkReg s.pc _⟩

end Sys2Proof.Machine

/-! PROOFS. The family 42_load_store: LD, LDI, LDR, LEA, ST, STI and STR, from the word to the next state. -/

namespace Sys2Proof.Machine

/-! ### The pointer of an indirect access (R43, R99) -/

theorem State.pointerAt_of_ne (s : State) {off9 : BitVec 9} (h : s.pc + sext off9 ≠ kbsrAddr) :
    s.pointerAt off9 = (s.cell (s.pc + sext off9), s) := by
  rw [State.pointerAt, State.memRead, State.pcRel, State.beforeRead_of_ne s h]

theorem State.pointerAt_kbsr {s : State} {off9 : BitVec 9} (h : s.pc + sext off9 = kbsrAddr)
    (hmem : Memory.wf s.mem = true) : s.pointerAt off9 = (s.kbsrValue, s.poll) := by
  rw [State.pointerAt, State.memRead, State.pcRel, h, State.beforeRead_kbsr, State.cell_poll_kbsrValue hmem]

theorem State.pointerAt_snd_pc (s : State) (off9 : BitVec 9) : (s.pointerAt off9).2.pc = s.pc := s.beforeRead_pc _

/-! ### A result or a store after the poll -/

/-- What leaves the cells and the host streams alone after a poll leaves it the one poll. -/
theorem Polled.of_kept {s u t : State} (hpoll : Polled s u) (hcells : SameCellsBut [] u t) (hhost : SameHost u t) :
    Polled s t := by
  obtain ⟨⟨hinput, hanswers, hpolls⟩, houtput, herrors⟩ := hhost
  have hcell : ∀ a, t.cell a = u.cell a := fun a => hcells a List.not_mem_nil
  simpa only [Polled, SameCellsBut, hcell, hinput, hanswers, hpolls, houtput, herrors] using hpoll

/-- A result written after a poll, seen from before the poll. -/
theorem ResultWritten.of_poll {s t : State} {dr : RegIx} {v : Word} (h : ResultWritten dr v s.poll t)
    (hmem : Memory.wf s.mem = true) :
    t.reg dr = v ∧ SameRegsBut [dr] s t ∧ t.cond = condOf v ∧ t.pc = s.pc ∧ t.run = s.run ∧ Polled s t := by
  obtain ⟨hreg, hregs, hcond, hpc, hrun, hcells, hhost⟩ := h
  exact ⟨hreg, fun r hr => (hregs r hr).trans (s.reg_poll r), hcond, hpc.trans s.poll_pc, hrun.trans s.poll_run,
    (polled_poll hmem).of_kept hcells hhost⟩

/-- A load through the pointer a poll left: the cell there is no device cell, so it reads as before the poll, and the
load polls no more. -/
theorem resultWritten_loadFrom_kbsrValue (s : State) (dr : RegIx) :
    ResultWritten dr (s.cell s.kbsrValue) s.poll (s.poll.loadFrom dr s.kbsrValue) := by
  obtain ⟨hkbsr, hkbdr⟩ := s.kbsrValue_ne
  rw [← State.cell_poll_other s hkbsr hkbdr]
  exact (loadedFrom_loadFrom s.poll dr s.kbsrValue).1 hkbsr

theorem State.cell_memWrite {s : State} (a v c : Word) (hmem : Memory.wf s.mem = true) :
    (s.memWrite a v).cell c = if c = a then v else s.cell c := by
  split
  · next h => rw [h, State.cell_memWrite_same a v hmem]
  · next h => exact State.cell_memWrite_other s v h

/-! ### The indirect accesses -/

/-- Settles O17: away from KBSR_ADDR the pointer read leaves the state as it is and LDI is a load from the pointer; at it
the pointer read is the poll, and the load through what it left is a result written after the poll. -/
theorem ldiLoadsThroughThePointer : Obligations.LdiLoadsThroughThePointer := by
  refine ⟨fun w hop => ?decoded, fun s dr off9 => ⟨_, rfl, fun haway => ?away, fun hat hmem => ?at_kbsr⟩⟩
  case decoded => exact decode_of_ldi (opcodeOf_bitField_of_extractLsb hop)
  case away =>
    rw [s.pointerAt_of_ne haway]
    exact loadedFrom_loadFrom s dr _
  case at_kbsr =>
    rw [State.pointerAt_kbsr hat hmem]
    exact (resultWritten_loadFrom_kbsrValue s dr).of_poll hmem

/-- Settles O21: away from KBSR_ADDR STI is a store at the pointer; at it the store, at 0x8000 or 0x0000, follows the
poll. -/
theorem stiStoresThroughThePointer : Obligations.StiStoresThroughThePointer := by
  refine ⟨fun w hop => ?decoded, fun s sr off9 =>
    ⟨_, rfl, s.pointerAt_snd_pc off9, fun haway => ?away, fun hat hmem => ?at_kbsr⟩⟩
  case decoded => exact decode_of_sti (opcodeOf_bitField_of_extractLsb hop)
  case away =>
    rw [s.pointerAt_of_ne haway]
    exact ⟨keptBut_memWrite s _ _, State.cell_memWrite_same _ _⟩
  case at_kbsr =>
    rw [State.pointerAt_kbsr hat hmem, State.memRead_snd, State.beforeRead_kbsr]
    obtain ⟨hregs, -, hcond, hrun, hhost⟩ := keptBut_memWrite s.poll s.kbsrValue (s.reg sr)
    exact ⟨polled_poll hmem, fun a => State.cell_memWrite _ _ a (State.wf_poll hmem),
      fun r hr => (hregs r hr).trans (s.reg_poll r), hcond.trans s.poll_cond, hrun.trans s.poll_run, hhost⟩

/-! ### The direct loads, LEA and the direct stores -/

/-- Settles O16: opcode 0x2 selects LD, a load from the PC-relative address. -/
theorem ldLoadsPcRelative : Obligations.LdLoadsPcRelative := by
  refine ⟨fun w hop => ?decoded, fun s dr off9 => ?load⟩
  case decoded => exact decode_of_ld (opcodeOf_bitField_of_extractLsb hop)
  case load => exact ⟨_, rfl, loadedFrom_loadFrom s dr (s.pc + sext off9)⟩

/-- Settles O18: opcode 0x6 selects LDR, a load from base plus offset. -/
theorem ldrLoadsBasePlusOffset : Obligations.LdrLoadsBasePlusOffset := by
  refine ⟨fun w hop => ?decoded, fun s dr base off6 => ?load⟩
  case decoded => exact decode_of_ldr (opcodeOf_bitField_of_extractLsb hop)
  case load => exact ⟨_, rfl, loadedFrom_loadFrom s dr (s.reg base + sext off6)⟩

/-- Settles O19: opcode 0xE selects LEA, which ends in `writeResult` of the address, without a read. -/
theorem leaWritesTheAddress : Obligations.LeaWritesTheAddress := by
  refine ⟨fun w hop => ?decoded, fun s dr off9 => ?result⟩
  case decoded => exact decode_of_lea (opcodeOf_bitField_of_extractLsb hop)
  case result => exact ⟨_, rfl, resultWritten_writeResult s dr (s.pc + sext off9)⟩

/-- Settles O20: opcode 0x3 selects ST, a store at the PC-relative address. -/
theorem stStoresPcRelative : Obligations.StStoresPcRelative := by
  refine ⟨fun w hop => ?decoded, fun s sr off9 => ?store⟩
  case decoded => exact decode_of_st (opcodeOf_bitField_of_extractLsb hop)
  case store =>
    exact ⟨_, rfl, State.cell_memWrite_same _ (s.reg sr), rfl, keptBut_memWrite s (s.pc + sext off9) (s.reg sr)⟩

/-- Settles O22: opcode 0x7 selects STR, a store at base plus offset. -/
theorem strStoresBasePlusOffset : Obligations.StrStoresBasePlusOffset := by
  refine ⟨fun w hop => ?decoded, fun s sr base off6 => ?store⟩
  case decoded => exact decode_of_str (opcodeOf_bitField_of_extractLsb hop)
  case store =>
    exact ⟨_, rfl, State.cell_memWrite_same _ (s.reg sr), rfl,
      keptBut_memWrite s (s.reg base + sext off6) (s.reg sr)⟩

end Sys2Proof.Machine

/-! PROOFS. The family 43_trap: the dispatch of TRAP, its six services and the unrecognised vectors, from the word to
the next state. -/

namespace Sys2Proof.Machine

/-! ### The words and vectors of TRAP (R69, R110, R117) -/

theorem decode_of_trap_word {w : Word} (hop : w.extractLsb 15 12 = 0xF#4) : decode w = trapInstr (w.extractLsb 7 0) :=
  decode_of_trap (opcodeOf_bitField_of_extractLsb hop)

/-- A word of opcode 0xF with a given vector is the term of that vector. -/
theorem decode_of_trap_vector {w : Word} {vect : Byte} (hop : w.extractLsb 15 12 = 0xF#4)
    (hvect : w.extractLsb 7 0 = vect) : decode w = trapInstr vect :=
  hvect ▸ decode_of_trap_word hop

/-- The six services have the vectors from 0x20 to 0x25. -/
theorem toNat_of_mem_serviceVectors : ∀ vect ∈ serviceVectors, 0x20 ≤ vect.toNat ∧ vect.toNat ≤ 0x25 := by decide

theorem isServiceVector_eq_false {vect : Byte} (h : vect.toNat < 0x20 ∨ 0x25 < vect.toNat) :
    isServiceVector vect = false := by
  refine Bool.eq_false_iff.mpr fun hservice => ?_
  have hrange := toNat_of_mem_serviceVectors vect (List.contains_iff_mem.mp hservice)
  omega

theorem trapRoutine_of_not_service {vect : Byte} (h : isServiceVector vect = false) :
    trapRoutine vect = serviceUnknown vect := by
  simp only [isServiceVector, serviceVectors, List.contains_eq_mem, decide_eq_false_iff_not, List.mem_cons,
    List.not_mem_nil, or_false, not_or] at h
  simp [trapRoutine, h]

/-! ### The return of a trap (R110, R136) -/

/-- A trap comes back to the PC it saved from wherever its routine left R7, COND, the cells and the draws alone. -/
theorem trapReturned_trapReturn (vect : Byte) {s u : State} {rs : List RegIx} (hlink : 7 ∉ rs)
    (hregs : SameRegsBut rs (trapEnter vect s) u) (hcond : u.cond = s.cond) (hmem : u.mem = s.mem)
    (hanswers : u.pollAnswers = s.pollAnswers) (hpolls : u.polls = s.polls) : TrapReturned rs s (trapReturn u) := by
  have hsaved : u.reg 7 = s.pc := by simpa using hregs 7 hlink
  refine ⟨hsaved, hsaved, fun r hr => ?_, hcond, fun a _ => congrArg (Memory.lookup · a.toNat) hmem, hanswers, hpolls⟩
  obtain ⟨hr7, hrs⟩ := not_or.mp (mt List.mem_cons.mpr hr)
  simpa [hr7] using hregs r hrs

/-- Every trap that goes on has returned; of the registers its routine may write R0 alone. -/
theorem trapReturned_of_execTrap {vect : Byte} {s t : State} (h : execTrap vect s = .next t) :
    TrapReturned [0] s t := by
  obtain ⟨u, hu, rfl⟩ := trapSequence_eq_next.mp h
  obtain ⟨hregs, hcond, hmem, hanswers, hpolls, -⟩ := trapRoutine_next hu
  exact trapReturned_trapReturn vect (by decide) (fun r hr => hregs r (.inl (List.ne_of_not_mem_cons hr))) hcond hmem
    hanswers hpolls

/-- A trap whose routine writes output alone returns with R0 as it was too. -/
theorem trapReturned_out (vect : Byte) (s : State) (bytes : List Byte) :
    TrapReturned [] s (trapReturn ((trapEnter vect s).out bytes)) :=
  trapReturned_trapReturn vect List.not_mem_nil (fun _ _ => rfl) rfl rfl rfl rfl

theorem reg_zero_trapEnter (vect : Byte) (s : State) : (trapEnter vect s).reg 0 = s.reg 0 := by simp

/-- Settles O23: the dispatch evaluated at the six vectors; the return of any trap; the term of any vector runs as TRAP
with it. -/
theorem trapDispatchesByVector : Obligations.TrapDispatchesByVector := by
  refine ⟨fun s => ?services, fun s t vect he => ?returned, fun w hop s => ?decoded⟩
  case services => exact ⟨rfl, rfl, rfl, rfl, rfl, rfl⟩
  case returned => exact trapReturned_of_execTrap he
  case decoded => rw [decode_of_trap_word hop, exec_trapInstr]

/-! ### The strings of PUTS and PUTSP (R113, R115) -/

section
variable {s : State} {a : Word} {bytes : Word → List Byte}

/-- A zero cell is the empty string. -/
theorem StringWritten.of_zero (h : s.cell a = 0) : StringWritten s a bytes [] :=
  ⟨0, a.isLt.le, fun k hk => absurd hk (Nat.not_lt_zero k), .inr (by simpa using h), rfl⟩

/-- A nonzero last cell of the address space is a string of one cell. -/
theorem StringWritten.of_last (h : s.cell lastCell ≠ 0) :
    StringWritten s lastCell bytes (bytes (s.cell lastCell)) := by
  refine ⟨1, le_rfl, fun k hk => ?_, .inl rfl, by simp⟩
  obtain rfl := Nat.lt_one_iff.mp hk
  simpa using h

/-- A nonzero cell before the last is the first of a string that goes on in the next cell. -/
theorem StringWritten.of_cons {written : List Byte} (h : s.cell a ≠ 0) (hlast : (a + 1).toNat = a.toNat + 1)
    (hrest : StringWritten s (a + 1) bytes written) : StringWritten s a bytes (bytes (s.cell a) ++ written) := by
  obtain ⟨n, hbound, hnonzero, hend, rfl⟩ := hrest
  have hshift : ∀ k, a + BitVec.ofNat 16 (k + 1) = a + 1 + BitVec.ofNat 16 k := fun k => by
    rw [Nat.add_comm, BitVec.ofNat_add, ← BitVec.add_assoc]; rfl
  rw [hlast] at hbound hend
  refine ⟨n + 1, by omega, fun k hk => ?_, ?_, ?_⟩
  · cases k with
    | zero => simpa using h
    | succ k => rw [hshift]; exact hnonzero k (by omega)
  · rw [hshift]; exact hend.imp_left (by omega)
  · rw [List.range_succ_eq_map, List.flatMap_cons, List.flatMap_map, BitVec.add_zero]
    simp only [Nat.succ_eq_add_one, hshift]

end

theorem toNat_succ_of_ne_lastCell {a : Word} (h : a ≠ lastCell) : (a + 1).toNat = a.toNat + 1 := by
  unfold lastCell at h
  bv_omega

/-- The scan visits the cells of the string, by induction on the cells left in the address space. -/
theorem stringWritten_scanFrom (s : State) (a : Word) (bytes : Word → List Byte) :
    StringWritten s a bytes ((scanFrom s.mem a).flatMap bytes) := by
  induction hleft : 65536 - a.toNat using Nat.strongRecOn generalizing a with
  | ind left ih =>
    subst hleft
    rw [scanFrom_eq]
    split
    · next hzero => exact .of_zero hzero
    · next hnonzero =>
      rw [List.flatMap_cons]
      split
      · next hlast =>
        subst hlast
        exact (List.append_nil _).symm ▸ .of_last hnonzero
      · next hlast =>
        have hsucc := toNat_succ_of_ne_lastCell hlast
        exact .of_cons hnonzero hsucc (ih _ (by omega) (a + 1) rfl)

theorem putspBytes_eq (c : Word) : putspBytes c =
    if c.extractLsb 15 8 = 0#8 then [c.extractLsb 7 0] else [c.extractLsb 7 0, c.extractLsb 15 8] := ite_not ..

/-- Settles O26: PUTS writes the low byte of each cell the scan from R0 visits. -/
theorem putsWritesTheString : Obligations.PutsWritesTheString := by
  refine ⟨fun w hop hvect => decode_of_trap_vector hop hvect, fun s =>
    ⟨_, _, rfl, rfl, ?string, rfl, rfl, rfl, trapReturned_out vecPuts s _⟩⟩
  case string =>
    rw [reg_zero_trapEnter]
    exact stringWritten_scanFrom s (s.reg 0) putsBytes

/-- Settles O28: PUTSP writes one or two bytes of each cell the scan from R0 visits. -/
theorem putspWritesThePackedString : Obligations.PutspWritesThePackedString := by
  refine ⟨fun w hop hvect => decode_of_trap_vector hop hvect, fun s =>
    ⟨_, _, rfl, rfl, ?string, rfl, rfl, rfl, trapReturned_out vecPutsp s _⟩⟩
  case string =>
    rw [reg_zero_trapEnter, ← funext putspBytes_eq]
    exact stringWritten_scanFrom s (s.reg 0) putspBytes

/-! ### OUT, HALT and the unrecognised vectors (R112, R116, R117) -/

/-- Settles O25: OUT writes the low byte of R0, which the trap entry leaves alone. -/
theorem outWritesTheLowByte : Obligations.OutWritesTheLowByte := by
  refine ⟨fun w hop hvect => decode_of_trap_vector hop hvect, fun s =>
    ⟨_, rfl, ?output, rfl, rfl, rfl, trapReturned_out vecOut s _⟩⟩
  case output => exact congrArg (s.output ++ [lowByte ·]) (reg_zero_trapEnter vecOut s)

/-- Settles O29: HALT writes its text, sets the run state and returns; HALT_TEXT is the empty text. -/
theorem haltStopsAfterTheRestore : Obligations.HaltStopsAfterTheRestore := by
  have hreturned (s : State) (text : List Byte) :
      TrapReturned [] s (trapReturn ((trapEnter vecHalt s).out text).halt) :=
    trapReturned_trapReturn vecHalt List.not_mem_nil (fun _ _ => rfl) rfl rfl rfl rfl
  refine ⟨fun w hop hvect => decode_of_trap_vector hop hvect, fun s => ?empty_text, fun s text => ?any_text⟩
  case empty_text => exact ⟨_, rfl, rfl, s.output.append_nil, rfl, rfl, hreturned s haltText⟩
  case any_text => exact ⟨_, rfl, rfl, rfl, hreturned s text⟩

theorem execTrap_of_not_service {vect : Byte} (s : State) (h : isServiceVector vect = false) :
    execTrap vect s = .next (trapReturn ((trapEnter vect s).raiseDiag (.unknownTrap vect))) := by
  rw [execTrap, trapRoutine_of_not_service h]; rfl

/-- Settles O30: a vector outside the six services' range is none of theirs, so it keeps its TRAP term and its routine
is the diagnostic. -/
theorem unknownTrapOnlyReports : Obligations.UnknownTrapOnlyReports := by
  refine ⟨fun w hop hvect => ?decoded, fun s vect hvect => ?reported⟩
  case decoded => rw [decode_of_trap_word hop, trapInstr_of_not_service (isServiceVector_eq_false hvect)]
  case reported =>
    exact ⟨_, execTrap_of_not_service s (isServiceVector_eq_false hvect), rfl, rfl, rfl, rfl,
      trapReturned_trapReturn vect List.not_mem_nil (fun _ _ => rfl) rfl rfl rfl rfl⟩

/-! ### GETC and IN (R111, R114) -/

@[simp] theorem State.giveChar_reg_zero (setsFlags : Bool) (b : Byte) (s : State) :
    (s.giveChar setsFlags b).reg 0 = zext8 b := by
  cases setsFlags with
  | false => exact State.reg_writeReg_same s 0 (zext8 b)
  | true => exact State.writeResult_reg_same s 0 (zext8 b)

@[simp] theorem State.giveChar_true_cond (b : Byte) (s : State) : (s.giveChar true b).cond = condOf (zext8 b) :=
  State.writeResult_cond s 0 (zext8 b)

theorem trapSequence_serviceGetc (setsFlags : Bool) {s : State} {b : Byte} {rest : List Byte}
    (h : s.input = b :: rest) : trapSequence vecGetc (serviceGetc setsFlags) s =
      .next (trapReturn (((trapEnter vecGetc s).setInput rest).giveChar setsFlags b)) := by
  rw [trapSequence, serviceGetc_of_cons (s := trapEnter vecGetc s) setsFlags h, onNext_next]

theorem trapSequence_serviceIn (prompt : List Byte) (setsFlags : Bool) {s : State} {b : Byte} {rest : List Byte}
    (h : s.input = b :: rest) : trapSequence vecIn (serviceIn prompt setsFlags) s =
      .next (trapReturn (((((trapEnter vecIn s).out prompt).setInput rest).out [b]).giveChar setsFlags b)) := by
  rw [trapSequence, serviceIn_of_cons (s := trapEnter vecIn s) prompt setsFlags h, onNext_next]

/-- Settles O24: GETC takes the byte and ends in `giveChar`, which writes COND only with TRAP_SETS_FLAGS. -/
theorem getcReadsOneCharacter : Obligations.GetcReadsOneCharacter := by
  refine ⟨fun w hop hvect => decode_of_trap_vector hop hvect, fun s b rest hinput => ?flags_kept,
    fun s b rest hinput => ?flags_set⟩
  case flags_kept =>
    have he : execGetc s = _ := trapSequence_serviceGetc trapSetsFlags hinput
    exact ⟨_, he, State.giveChar_reg_zero _ b _, rfl, rfl, rfl, rfl, trapReturned_of_execTrap (vect := vecGetc) he⟩
  case flags_set =>
    exact ⟨_, trapSequence_serviceGetc true hinput, State.giveChar_reg_zero true b _, rfl, rfl,
      State.giveChar_true_cond b _⟩

/-- Settles O27: IN ends as GETC does, after the prompt and the echo. -/
theorem inPromptsReadsAndEchoes : Obligations.InPromptsReadsAndEchoes := by
  refine ⟨fun w hop hvect => decode_of_trap_vector hop hvect, fun s b rest hinput => ?flags_kept,
    fun s b rest prompt hinput => ?flags_set⟩
  case flags_kept =>
    have he : execInChar s = _ := trapSequence_serviceIn inPrompt trapSetsFlags hinput
    exact ⟨_, he, State.giveChar_reg_zero _ b _, rfl, rfl, rfl, rfl, trapReturned_of_execTrap (vect := vecIn) he⟩
  case flags_set =>
    exact ⟨_, trapSequence_serviceIn prompt true hinput, State.giveChar_reg_zero true b _, rfl, rfl,
      State.giveChar_true_cond b _⟩

/-! ### The wait for input (R119) -/

/-- A trap that takes input puts the first byte into R0 and leaves the rest, by the two services that do. -/
theorem execTrap_takes_byte {vect : Byte} {s : State} {b : Byte} {rest : List Byte}
    (htakes : vect = vecGetc ∨ vect = vecIn) (hinput : s.input = b :: rest) :
    ∃ t, execTrap vect s = .next t ∧ t.reg 0 = zext8 b ∧ t.input = rest := by
  obtain rfl | rfl := htakes
  · exact ⟨_, trapSequence_serviceGetc trapSetsFlags hinput, State.giveChar_reg_zero _ b _, rfl⟩
  · exact ⟨_, trapSequence_serviceIn inPrompt trapSetsFlags hinput, State.giveChar_reg_zero _ b _, rfl⟩

theorem exec_takes_byte {i : Instr} {s : State} {b : Byte} {rest : List Byte} (htakes : Instr.takesInput i = true)
    (hinput : s.input = b :: rest) : ∃ t, exec i s = .next t ∧ t.reg 0 = zext8 b ∧ t.input = rest := by
  cases i with
  | getc => exact execTrap_takes_byte (.inl rfl) hinput
  | inChar => exact execTrap_takes_byte (.inr rfl) hinput
  | trap vect => exact execTrap_takes_byte (takesInput_trap.mp htakes) hinput
  | _ => cases htakes

/-- An instruction waits only if it takes input and there is none: every other goes on. -/
theorem takesInput_of_exec_waits {i : Instr} {s : State} (h : exec i s = .fault .awaitingInput) :
    Instr.takesInput i = true ∧ s.input = [] := by
  by_contra hnot
  obtain ⟨t, ht⟩ := exec_goes_on (i := i) (s := s) fun htakes hinput => hnot ⟨htakes, hinput⟩
  cases h.symm.trans ht

/-- The word a fetch at KBSR_ADDR reads takes no input (R43, R119). -/
theorem pc_ne_kbsrAddr_of_takesInput {s : State} (hmem : Memory.wf s.mem = true)
    (h : Instr.takesInput (decode s.fetch.1) = true) : s.pc ≠ kbsrAddr := by
  intro hk
  rw [State.fetch_word_kbsr hk hmem, State.kbsrValue] at h
  split at h <;> exact absurd h (by decide)

theorem State.fetch_supplyInput {s : State} (bytes : List Byte) (h : s.pc ≠ kbsrAddr) :
    (s.supplyInput bytes).fetch = (s.fetch.1, s.fetch.2.supplyInput bytes) := by
  rw [State.fetch_of_ne s h, State.fetch_of_ne (s.supplyInput bytes) h]; rfl

/-- Once bytes are supplied, a step that waits goes on and takes the first of them. -/
theorem step_of_waiting_supplyInput {s : State} {b : Byte} {rest : List Byte} (hmem : Memory.wf s.mem = true)
    (hwait : s.waiting) :
    ∃ t, step (s.supplyInput (b :: rest)) = .next t ∧ t.reg 0 = zext8 b ∧ t.input = rest := by
  obtain ⟨hrun, htakes, hinput⟩ := hwait
  have hsupplied : (s.fetch.2.supplyInput (b :: rest)).input = b :: rest := by
    simp [input_fetch_of_takesInput hmem htakes, hinput]
  rw [step_of_running (s := s.supplyInput (b :: rest)) hrun,
    State.fetch_supplyInput _ (pc_ne_kbsrAddr_of_takesInput hmem htakes)]
  exact exec_takes_byte htakes hsupplied

theorem setWidth_zext8 (b : Byte) : (zext8 b).setWidth 8 = b := by simp [zext8]

/-- Settles O31: a stop that waits is that of an instruction that takes input, with none there; the fetch reads the same
instruction once there is some. -/
theorem blockingInputWaitsForAByte : Obligations.BlockingInputWaitsForAByte := by
  refine ⟨fun s hinput => ?waits, fun s bytes hmem hstep hbytes => ?lifted, fun i s => takesInput_of_exec_waits⟩
  case waits => exact ⟨exec_waits rfl hinput, exec_waits rfl hinput⟩
  case lifted =>
    obtain ⟨-, -, hwaits, -⟩ := stepStopsOnlyHaltedOrWaiting s hmem
    obtain ⟨b, rest, rfl⟩ := List.exists_cons_of_ne_nil hbytes
    obtain ⟨t, ht, hreg, hrest⟩ := step_of_waiting_supplyInput (b := b) (rest := rest) hmem (hwaits.mp hstep)
    exact ⟨t, ht, by rw [hreg, hrest, setWidth_zext8]⟩

end Sys2Proof.Machine

/-! PROOFS. The family 44_sequencer: the reserved opcodes, the step and its fetch at KBSR_ADDR, the end of a run, and
the word placed where the next step fetches it. -/

namespace Sys2Proof.Machine

/-! ### The reserved opcodes (R123, R124) -/

/-- Settles O32: opcodes 0x8 and 0xD select the reserved forms, and each ends in `raiseDiag`. -/
theorem reservedOpcodesOnlyReport : Obligations.ReservedOpcodesOnlyReport := by
  refine ⟨fun w => ⟨fun hop => ?decoded8, fun hop => ?decodedD⟩, fun s => ?report8, fun s => ?reportD⟩
  case decoded8 => exact decode_of_reserved8 (opcodeOf_bitField_of_extractLsb hop)
  case decodedD => exact decode_of_reservedD (opcodeOf_bitField_of_extractLsb hop)
  case report8 => exact ⟨_, rfl, rfl, rfl, fun _ _ => rfl, fun _ _ => rfl, rfl, rfl, rfl, rfl, rfl, rfl⟩
  case reportD => exact ⟨_, rfl, rfl, rfl, fun _ _ => rfl, fun _ _ => rfl, rfl, rfl, rfl, rfl, rfl, rfl⟩

/-! ### The step (R121, R125) -/

/-- Settles O33: a running step runs what the fetch gives, which away from KBSR_ADDR is the cell at PC. -/
theorem stepRunsTheDecodedInstruction : Obligations.StepRunsTheDecodedInstruction := by
  refine ⟨fun s => step_of_halted, fun s hrun => ⟨step_of_running hrun, fun haway => ?away⟩⟩
  case away => rw [step_of_running hrun, s.fetch_of_ne haway]; rfl

theorem State.fetch_snd_kbsr {s : State} (h : s.pc = kbsrAddr) : s.fetch.2 = s.poll.setPc 0xFE01 := by
  rw [State.fetch, State.memRead_snd, h, State.beforeRead_kbsr]
  rfl

/-- A step at KBSR_ADDR is the poll, the increment, and a diagnostic if the poll found input (R43, R121, D9). -/
theorem step_at_kbsr {s : State} (hrun : s.run = .running) (hpc : s.pc = kbsrAddr) (hmem : Memory.wf s.mem = true) :
    step s = .next (if s.available then (s.poll.setPc 0xFE01).raiseDiag (.unsupportedOpcode 0x8)
      else s.poll.setPc 0xFE01) := by
  rw [step_of_running hrun, State.fetch_word_kbsr hpc hmem, exec_decode_kbsrValue, State.fetch_snd_kbsr hpc]

/-- Settles O34: the draw of the poll decides whether the step adds a diagnostic; the rest of the state is
the poll's. -/
theorem fetchAtKbsrPollsFirst : Obligations.FetchAtKbsrPollsFirst := by
  intro s hrun hpc hmem
  refine ⟨_, s.poll, step_at_kbsr hrun hpc hmem, polled_poll hmem, ?_⟩
  cases s.available with
  | true =>
    exact ⟨rfl, congrArg (· ++ [Diagnostic.unsupportedOpcode 0x8]) s.poll_errors, fun r _ => s.reg_poll r,
      s.poll_cond, s.poll_run.trans hrun⟩
  | false => exact ⟨rfl, s.poll_errors, fun r _ => s.reg_poll r, s.poll_cond, s.poll_run.trans hrun⟩

/-! ### The end of a run (R120, R125) -/

theorem run_of_execTrap {vect : Byte} {s t : State} (h : execTrap vect s = .next t) :
    t.run = if vect = vecHalt then .halted else s.run := by
  obtain ⟨u, hu, rfl⟩ := trapSequence_eq_next.mp h
  obtain ⟨-, -, -, -, -, -, -, -, hrun⟩ := trapRoutine_next hu
  exact hrun

/-- The term `.trap vecHalt`, which would halt too, is not well-formed: HALT's vector has the term `.halt` (R69). -/
theorem ne_vecHalt_of_wellFormed {vect : Byte} (h : (Instr.trap vect).wellFormed = true) : vect ≠ vecHalt := by
  rintro rfl
  exact absurd h (by decide)

/-- Of the well-formed instructions HALT alone writes the run state (R120). -/
theorem run_of_exec {i : Instr} {s t : State} (hwf : i.wellFormed = true) (h : exec i s = .next t) :
    t.run = if i = .halt then .halted else s.run := by
  cases i with
  | trap vect =>
    rw [run_of_execTrap h, if_neg (ne_vecHalt_of_wellFormed hwf), if_neg nofun]
  | getc => exact run_of_execTrap (vect := vecGetc) h
  | out => exact run_of_execTrap (vect := vecOut) h
  | puts => exact run_of_execTrap (vect := vecPuts) h
  | inChar => exact run_of_execTrap (vect := vecIn) h
  | putsp => exact run_of_execTrap (vect := vecPutsp) h
  | halt => exact run_of_execTrap (vect := vecHalt) h
  | br n z p off9 => cases (execBr_eq n z p off9 s).symm.trans h; rfl
  | ld dr off9 => cases h; exact s.beforeRead_run _
  | ldr dr base off6 => cases h; exact s.beforeRead_run _
  | sti sr off9 => cases h; exact s.beforeRead_run _
  | ldi dr off9 => cases h; exact (State.beforeRead_run _ _).trans (s.beforeRead_run _)
  | _ => cases h; rfl

theorem wellFormed_decode (w : Word) : (decode w).wellFormed = true := (everyWordDecodesAndKeepsItsUsedBits w).1

@[simp] theorem State.fetch_snd_run (s : State) : s.fetch.2.run = s.run := s.beforeRead_run s.pc

/-- Settles O35: a step runs a decoded word, whose term is well-formed, from a running state. -/
theorem onlyHaltEndsARun : Obligations.OnlyHaltEndsARun := by
  refine ⟨fun s => step_of_halted, fun s t hstep => ?_⟩
  obtain ⟨hrun, he⟩ := step_eq_next.mp hstep
  refine ⟨hrun, ?_⟩
  rw [run_of_exec (wellFormed_decode _) he, State.fetch_snd_run, hrun]
  split
  · next hhalt => exact iff_of_true rfl hhalt
  · next hhalt => exact iff_of_false nofun hhalt

/-! ### A placed word (log entry 11) -/

theorem State.readyToFetch_pc_ne (s : State) : s.readyToFetch.pc ≠ kbsrAddr := by
  unfold State.readyToFetch
  split
  · exact show startPc ≠ kbsrAddr by decide
  · next haway => exact haway

theorem State.fetch_placeAtFetch {s : State} (v : Word) (hmem : Memory.wf s.mem = true) :
    (s.placeAtFetch v).fetch = (v, (s.placeAtFetch v).setPc ((s.placeAtFetch v).pc + 1)) := by
  have hcell : (s.placeAtFetch v).cell (s.placeAtFetch v).pc = v :=
    State.cell_memWrite_same (s := s.readyToFetch) _ v hmem
  rw [State.fetch_of_ne (s.placeAtFetch v) s.readyToFetch_pc_ne, hcell]

theorem tableWord_sixteen (w : Nat) : tableWord 16 w = BitVec.ofNat 16 w := by
  apply BitVec.eq_of_toNat_eq
  simp [tableWord]

/-- Settles O37: the placing leaves a running state whose fetch reads the placed word without a poll. -/
theorem placedWordIsRunNext : Obligations.PlacedWordIsRunNext := by
  intro s w _ hmem
  rw [State.withFetchWord, tableWord_sixteen, step_of_running rfl, State.fetch_placeAtFetch _ hmem]

end Sys2Proof.Machine

/-! PROOFS. The family 70_reset_and_hazards: the image the loader places, the byte a second poll loses, and the input
the host appends behind a byte already there. -/

namespace Sys2Proof.Machine

/-! ### The loader (R151, R152) -/

/-- The big-endian bytes of a list of words read back as the words, whether or not an odd byte follows. -/
theorem imageWords_bigEndian (words : List Word) {odd : List Byte} (hodd : odd.length ≤ 1) :
    imageWords (words.flatMap (fun w => [w.extractLsb 15 8, w.extractLsb 7 0]) ++ odd) = words := by
  induction words with
  | nil =>
    match odd with
    | [] => rfl
    | [_] => rfl
  | cons w words ih =>
    have hword : w.extractLsb 15 8 ++ w.extractLsb 7 0 = w := BitVec.extractLsb'_append_extractLsb' (w := 8) (len := 8)
    exact congrArg₂ List.cons hword ih

/-- Placing words from `a` up puts the word of index `c - a` into cell `c`, and writes no cell below `a` or
above them. -/
theorem lookup_placeWords {m : Memory} (a : Nat) (words : List Word) (hmem : Memory.wf m = true) {c : Nat}
    (hc : c < 65536) : Memory.lookup (placeWords m a words) c =
      if h : a ≤ c ∧ c - a < words.length then words[c - a] else Memory.lookup m c := by
  induction words generalizing m a with
  | nil => simp [placeWords]
  | cons w words ih =>
    by_cases ha : a < 65536
    · rw [placeWords, if_pos ha, ih (a + 1) (Memory.wf_store w hmem ha)]
      obtain hlt | rfl | hgt := Nat.lt_trichotomy a c
      · have hindex : c - a = (c - (a + 1)) + 1 := by omega
        simp only [Memory.lookup_store_other m w (Nat.ne_of_gt hlt), hindex, List.length_cons, List.getElem_cons_succ,
          Nat.add_lt_add_iff_right, Nat.succ_le_of_lt hlt, hlt.le, true_and]
      · simp [Memory.lookup_store_same a w hmem]
      · rw [dif_neg (by omega), dif_neg (by omega), Memory.lookup_store_other m w (by omega)]
    · rw [placeWords, if_neg ha, dif_neg (by omega)]

/-- Settles O50: the image reads back as its words, the first of which is the origin. -/
theorem loaderPlacesTheImage : Obligations.LoaderPlacesTheImage := by
  intro m origin words odd hmem hodd a ha
  rw [loadImage, imageWords_bigEndian _ hodd]
  exact lookup_placeWords origin.toNat words hmem ha

/-! ### A second poll (R43, R159) -/

/-- A poll that finds input takes the first byte of the stream and leaves it, zero-extended, in KBDR. -/
theorem poll_takes_byte {s : State} {b : Byte} {rest : List Byte} (hmem : Memory.wf s.mem = true)
    (hinput : s.input = b :: rest) (havailable : s.available = true) :
    s.poll.input = rest ∧ s.poll.cell kbdrAddr = b.setWidth 16 := by
  obtain ⟨hfound, -⟩ := polled_poll hmem
  obtain ⟨b', htaken, -, hkbdr⟩ := hfound havailable
  obtain ⟨rfl, hrest⟩ := List.cons.inj (hinput.symm.trans htaken)
  exact ⟨hrest.symm, hkbdr⟩

/-- Settles O49: each of the two polls takes the byte then first in the stream, and the read of KBDR does not poll. -/
theorem secondPollOverwritesKbdr : Obligations.SecondPollOverwritesKbdr := by
  intro s a b rest hmem hinput hfirst hsecond
  simp only [State.memRead_snd, State.memRead_fst, State.beforeRead_kbsr] at hsecond ⊢
  obtain ⟨hinput', -⟩ := poll_takes_byte hmem hinput hfirst
  obtain ⟨hrest, hkbdr⟩ := poll_takes_byte (State.wf_poll hmem) hinput' hsecond
  exact ⟨by rw [State.beforeRead_of_ne _ (by decide), hkbdr], hrest⟩

/-! ### Input the host appends (R32, R156) -/

theorem State.available_supplyInput {s : State} (more : List Byte) (h : s.input ≠ []) :
    (s.supplyInput more).available = s.available := by
  obtain ⟨b, rest, hinput⟩ := List.exists_cons_of_ne_nil h
  have hdraw : (s.supplyInput more).pollDraw = s.pollDraw := rfl
  simp [State.available, hdraw, hinput]

theorem State.poll_supplyInput {s : State} (more : List Byte) (h : s.input ≠ []) :
    (s.supplyInput more).poll = s.poll.supplyInput more := by
  obtain ⟨b, rest, hinput⟩ := List.exists_cons_of_ne_nil h
  have hdraw : (s.supplyInput more).pollDraw = s.pollDraw := rfl
  rw [State.poll, State.poll, hdraw]
  cases s.pollDraw with
  | false => rfl
  | true => simp only [State.pollWith, State.takeDraw_input, State.supplyInput_input, hinput, List.cons_append]; rfl

/-- A read commutes with the appending, unless it polls an empty stream. -/
theorem State.memRead_supplyInput {s : State} {a : Word} (more : List Byte) (h : a = kbsrAddr → s.input ≠ []) :
    (s.supplyInput more).memRead a = ((s.memRead a).1, (s.memRead a).2.supplyInput more) := by
  by_cases hk : a = kbsrAddr
  · subst hk
    rw [State.memRead, State.memRead, State.beforeRead_kbsr, State.beforeRead_kbsr, State.poll_supplyInput more (h rfl),
      State.cell_supplyInput]
  · rw [State.memRead, State.memRead, State.beforeRead_of_ne _ hk, State.beforeRead_of_ne _ hk, State.cell_supplyInput]

theorem State.loadFrom_supplyInput {s : State} {ea : Word} (more : List Byte) (dr : RegIx)
    (h : ea = kbsrAddr → s.input ≠ []) :
    (s.supplyInput more).loadFrom dr ea = (s.loadFrom dr ea).supplyInput more := by
  rw [State.loadFrom, State.memRead_supplyInput more h]; rfl

theorem State.pointerAt_supplyInput {s : State} {off9 : BitVec 9} (more : List Byte) (h : s.input ≠ []) :
    (s.supplyInput more).pointerAt off9 = ((s.pointerAt off9).1, (s.pointerAt off9).2.supplyInput more) :=
  State.memRead_supplyInput more fun _ => h

/-- After the pointer read a further read polls only if the pointer read did not, and then no byte is gone. -/
theorem State.input_pointerAt_ne_nil {s : State} {off9 : BitVec 9} (hmem : Memory.wf s.mem = true) (h : s.input ≠ [])
    (hk : (s.pointerAt off9).1 = kbsrAddr) : (s.pointerAt off9).2.input ≠ [] := by
  by_cases hat : s.pc + sext off9 = kbsrAddr
  · rw [State.pointerAt_kbsr hat hmem] at hk
    exact absurd hk s.kbsrValue_ne.1
  · rw [s.pointerAt_of_ne hat]
    exact h

theorem trapRoutine_supplyInput (vect : Byte) {s : State} (more : List Byte) (h : s.input ≠ []) :
    trapRoutine vect (s.supplyInput more) = onNext (trapRoutine vect s) (State.supplyInput · more) := by
  obtain ⟨b, rest, hinput⟩ := List.exists_cons_of_ne_nil h
  have hmore : (s.supplyInput more).input = b :: (rest ++ more) := congrArg (· ++ more) hinput
  unfold trapRoutine
  split
  · rw [serviceGetc_of_cons _ hinput, serviceGetc_of_cons _ hmore]; rfl
  split
  · rfl
  split
  · rfl
  split
  · rw [serviceIn_of_cons _ _ hinput, serviceIn_of_cons _ _ hmore]; rfl
  split
  · rfl
  split
  · rfl
  · rfl

theorem onNext_onNext (o : Host.Outcome State Fault Refusal) (f g : State → State) :
    onNext (onNext o f) g = onNext o (g ∘ f) := by
  cases o <;> rfl

theorem execTrap_supplyInput (vect : Byte) {s : State} (more : List Byte) (h : s.input ≠ []) :
    execTrap vect (s.supplyInput more) = onNext (execTrap vect s) (State.supplyInput · more) := by
  calc execTrap vect (s.supplyInput more)
      = onNext (trapRoutine vect ((trapEnter vect s).supplyInput more)) trapReturn := rfl
    _ = onNext (onNext (trapRoutine vect (trapEnter vect s)) (State.supplyInput · more)) trapReturn := by
      rw [trapRoutine_supplyInput (s := trapEnter vect s) vect more h]
    _ = onNext (onNext (trapRoutine vect (trapEnter vect s)) trapReturn) (State.supplyInput · more) := by
      rw [onNext_onNext, onNext_onNext]; rfl

theorem exec_supplyInput (i : Instr) {s : State} (more : List Byte) (hmem : Memory.wf s.mem = true)
    (h : s.input ≠ []) : exec i (s.supplyInput more) = onNext (exec i s) (State.supplyInput · more) := by
  cases i with
  | ld dr off9 => exact congrArg Host.Outcome.next (State.loadFrom_supplyInput more dr fun _ => h)
  | ldr dr base off6 => exact congrArg Host.Outcome.next (State.loadFrom_supplyInput more dr fun _ => h)
  | ldi dr off9 =>
    calc exec (.ldi dr off9) (s.supplyInput more)
        = .next (((s.pointerAt off9).2.supplyInput more).loadFrom dr (s.pointerAt off9).1) := by
          rw [exec, execLdi, State.pointerAt_supplyInput more h]
      _ = onNext (exec (.ldi dr off9) s) (State.supplyInput · more) :=
        congrArg Host.Outcome.next (State.loadFrom_supplyInput more dr (State.input_pointerAt_ne_nil hmem h))
  | sti sr off9 =>
    rw [exec, execSti, State.pointerAt_supplyInput more h]
    rfl
  | br n z p off9 =>
    calc exec (.br n z p off9) (s.supplyInput more)
        = .next ((s.supplyInput more).setPc _) := execBr_eq n z p off9 _
      _ = onNext (exec (.br n z p off9) s) (State.supplyInput · more) :=
        (congrArg (onNext · (State.supplyInput · more)) (execBr_eq n z p off9 s)).symm
  | trap vect => exact execTrap_supplyInput vect more h
  | getc => exact execTrap_supplyInput vecGetc more h
  | out => exact execTrap_supplyInput vecOut more h
  | puts => exact execTrap_supplyInput vecPuts more h
  | inChar => exact execTrap_supplyInput vecIn more h
  | putsp => exact execTrap_supplyInput vecPutsp more h
  | halt => exact execTrap_supplyInput vecHalt more h
  | _ => rfl

/-- Settles O46: away from KBSR_ADDR the fetch takes no input, and every instruction finds the same first byte; at it
the step is the one poll. -/
theorem laterInputDoesNotChangeAStep : Obligations.LaterInputDoesNotChangeAStep := by
  intro s more hmem h
  cases hrun : s.run with
  | halted => rw [step_of_halted hrun, step_of_halted (s := s.supplyInput more) hrun, onNext_fault]
  | running =>
    by_cases hk : s.pc = kbsrAddr
    · rw [step_at_kbsr hrun hk hmem, step_at_kbsr (s := s.supplyInput more) hrun hk hmem,
        State.available_supplyInput more h, State.poll_supplyInput more h, onNext_next]
      split <;> rfl
    · rw [step_of_running hrun, step_of_running (s := s.supplyInput more) hrun, State.fetch_supplyInput more hk,
        s.fetch_of_ne hk]
      exact exec_supplyInput _ more hmem h

end Sys2Proof.Machine
